-- ==== Sys2Proof/Word.lean ====
section
/-! DEFINITION. Word.lean: the widths of the block (00_scope.md R8, 10_state.md, 30_encoding.md).
Names for bit vectors only; every operation on them stands in Decode.lean or under Machine/. -/

namespace Sys2Proof

/-- One byte of the input stream; the width of `asm0` and `asm1` (R20). -/
abbrev Byte := BitVec 8

/-- A raw sample, a 12-bit field of a group (R57). -/
abbrev Raw12 := BitVec 12

/-- `signed16`, the left-justified sample (R13, R68). -/
abbrev Fixed16 := BitVec 16

/-- `packed`, the 24-bit value of a group (R57, R65). -/
abbrev Packed24 := BitVec 24

/-- A binary32 bit pattern (R56). -/
abbrev Word32 := BitVec 32

/-- An input token `in9` (R49). -/
abbrev InBits := BitVec 9

/-- An output token `out33` (R52). -/
abbrev OutBits := BitVec 33

end Sys2Proof
end

