-- ==== Sys2Proof/Config.lean ====
section
/-! DEFINITION. Config.lean: what an implementation fixes (00_scope.md R7, R8).
The block has ONE implementation parameter, OUTQ_DEPTH. R7 makes it an argument of the model: it is the
field `outqDepth` of State (log entry 1), so a statement over all states holds at every depth. -/

namespace Sys2Proof

/-- The least legal OUTQ_DEPTH (R7). -/
def Config.minDepth : Nat := 2

/-- The reference value of OUTQ_DEPTH (R7), which `State.reset` carries (log entry 1, DESIGN CHOICE). -/
def Config.referenceDepth : Nat := 2

end Sys2Proof
end

