-- ==== Sys2Proof/Machine/Float.lean ====
section
/-! DEFINITION. Machine/Float.lean: the binary32 format (30_encoding.md R56) and rounding to nearest
(40_datapath.md R70, decision D8), in exact natural-number arithmetic. -/

namespace Sys2Proof.Machine

/-- `sign`, bit 31 (R56). -/
def f32Sign (w : Word32) : Bool := w.getLsbD 31

/-- `exp`, bits 30:23, biased by 127 (R56). -/
def f32Exp (w : Word32) : Nat := (w.extractLsb' 23 8).toNat

/-- `frac`, bits 22:0 (R56). -/
def f32Frac (w : Word32) : Nat := (w.extractLsb' 0 23).toNat

/-- The word `{sign, exp[7:0], frac[22:0]}` (R56). -/
def f32Bits (sign : Bool) (exp frac : Nat) : Word32 :=
  BitVec.ofBool sign ++ BitVec.ofNat 8 exp ++ BitVec.ofNat 23 frac

/-- The exact value of a word, where R56 gives it one: `(-1)^sign * (1 + frac/2^23) * 2^(exp-127)` for `exp` in
1 to 254, which is `± (2^23 + frac) * 2^exp / 2^150`, and 0 for a zero of either sign. -/
def f32Value (w : Word32) : Option Rat :=
  if f32Exp w = 0 ∧ f32Frac w = 0 then some 0
  else if 1 ≤ f32Exp w ∧ f32Exp w ≤ 254 then
    let mag : Rat := ((2 ^ 23 + f32Frac w) * 2 ^ f32Exp w : Nat) / (2 ^ 150 : Nat)
    some (if f32Sign w then -mag else mag)
  else none

/-- A pattern the block may produce by R56: +0.0 or a normal word (never an infinity, NaN, subnormal or -0.0). -/
def f32Plain (w : Word32) : Bool := w == 0 || (1 ≤ f32Exp w && f32Exp w ≤ 254)

/-- The least `k' ≥ k`, within `fuel` tries, with `target ≤ num * 2^k'`: R72's `k`, found by search. -/
def findShift (target num : Nat) : Nat → Nat → Nat
  | 0, k => k
  | fuel + 1, k => if target ≤ num * 2 ^ k then k else findShift target num fuel (k + 1)

/-- Round `num / den` to `p` significant bits, to nearest, ties to even (R70): `(q, k)` with
`2^(p-1) ≤ q < 2^p` stands for `q / 2^k`. It takes `0 < num < 2^p * den` and `den < 2^64 * num`. -/
def roundSig (p num den : Nat) : Nat × Nat :=
  let k := findShift (2 ^ (p - 1) * den) num 160 0
  let q := num * 2 ^ k / den
  let r := num * 2 ^ k % den
  let q' := if den < 2 * r ∨ (2 * r = den ∧ q % 2 = 1) then q + 1 else q
  if q' = 2 ^ p then (2 ^ (p - 1), k - 1) else (q', k)

/-- `bits32(RNE32(± num / den))` (R10, R70), for quotients in binary32's normal range; RNE32(0) is +0.0. -/
def rne32 (neg : Bool) (num den : Nat) : Word32 :=
  if num = 0 then 0
  else
    let s := roundSig 24 num den
    f32Bits neg (150 - s.2) (s.1 - 2 ^ 23)

end Sys2Proof.Machine
end

