-- ==== Sys2Proof/Machine/Operands.lean ====
section
/-! DEFINITION. Machine/Operands.lean: the operand forms of the datapath: the triplet of a group
(30_encoding.md R57; 40_datapath.md R65-R67). -/

namespace Sys2Proof.Machine

/-- PACK (R65): `zext_24(a) | (zext_24(b) << 8) | (zext_24(c) << 16)`. -/
def pack (a b c : Byte) : Packed24 :=
  a.setWidth 24 ||| b.setWidth 24 <<< 8 ||| c.setWidth 24 <<< 16

/-- UNPACK_S0 (R66): `packed & 0xFFF`. -/
def unpackS0 (p : Packed24) : Raw12 := (p &&& 0xFFF).setWidth 12

/-- UNPACK_S1 (R67): `(packed >> 12) & 0xFFF`. -/
def unpackS1 (p : Packed24) : Raw12 := (p >>> 12 &&& 0xFFF).setWidth 12

/-- The triplet whose lanes are `h` (bits 23:12, `s1_raw`) and `l` (bits 11:0, `s0_raw`) (R57). -/
def triplet (h l : Raw12) : Packed24 := h ++ l

/-- Byte `a` of a group, bits 7:0 of `packed` (R35). -/
def byteA (p : Packed24) : Byte := p.extractLsb' 0 8

/-- Byte `b` of a group, bits 15:8 of `packed` (R35). -/
def byteB (p : Packed24) : Byte := p.extractLsb' 8 8

/-- Byte `c` of a group, bits 23:16 of `packed` (R35). -/
def byteC (p : Packed24) : Byte := p.extractLsb' 16 8

end Sys2Proof.Machine
end

