-- ==== Sys2Proof/Machine/Datapath.lean ====
section
/-! DEFINITION. Machine/Datapath.lean: the sign-extender, the int_to_fp converter and the group decoder
(40_datapath.md R64, R68-R75, R80), and the other evaluations R78 and R79 compare with. -/

namespace Sys2Proof.Machine

/-- SX16 (R68): the 16-bit pattern `raw << 4`, whose two's-complement reading is `16 * sint(raw)`
(90_conflicts.md C1: the sign is kept, the value scaled by 16). -/
def sx16 (raw : Raw12) : Fixed16 := raw ++ 0#4

/-- The normalisation divisor, the constant 32767 (R8, R70; 90_conflicts.md C2, C5). -/
def divisor : Nat := 32767

/-- ITOF (R69): the binary32 value equal to `v`. -/
def itof (v : Fixed16) : Word32 := rne32 (v.toInt < 0) v.toInt.natAbs 1

/-- The integer a word encodes, when it is an operand of NORM: an integer in -32768 to 32767 as ITOF gives it (R70). -/
def f32ToInt16 (x : Word32) : Option Int :=
  if x = 0 then some 0
  else if 127 ≤ f32Exp x ∧ f32Exp x ≤ 142 ∧ (2 ^ 23 + f32Frac x) % 2 ^ (150 - f32Exp x) = 0 then
    let m : Nat := (2 ^ 23 + f32Frac x) / 2 ^ (150 - f32Exp x)
    if f32Sign x then (if m ≤ 32768 then some (-(m : Int)) else none)
    else (if m ≤ 32767 then some (m : Int) else none)
  else none

/-- NORM (R70): `RNE32(x / 32767)` for a word `x` in NORM's operand range; no result is defined elsewhere
(log entry 9). -/
def normalise (x : Word32) : Option Word32 :=
  (f32ToInt16 x).map fun v => rne32 (v < 0) v.natAbs divisor

/-- R72's `k`, in 23 to 38: `2^23 * 32767 ≤ m * 2^k < 2^24 * 32767`. -/
def i2fShift (m : Nat) : Nat := findShift (2 ^ 23 * divisor) m 15 23

/-- R72's significand after rounding to nearest: `q`, or `q + 1` when `2*r > 32767`. -/
def i2fSig (m : Nat) : Nat :=
  let n := m * 2 ^ i2fShift m
  if 2 * (n % divisor) > divisor then n / divisor + 1 else n / divisor

/-- I2F_BITS (R72), the bit-exact integer algorithm of I2F (R71), on the whole int16 domain. -/
def i2fBits (v : Fixed16) : Word32 :=
  if v = 0 then 0x00000000
  else
    let m := v.toInt.natAbs
    let q := i2fSig m
    let k := i2fShift m
    if q = 2 ^ 24 then f32Bits (v.toInt < 0) (150 - (k - 1)) 0
    else f32Bits (v.toInt < 0) (150 - k) (q - 2 ^ 23)

/-- SAMPLE (R80): `I2F(SX16(raw))`. -/
def sample (raw : Raw12) : Word32 := i2fBits (sx16 raw)

/-- The two words of a packed group, sample 0 first (R64, R75, R77). -/
def groupWords (p : Packed24) : Word32 × Word32 := (sample (unpackS0 p), sample (unpackS1 p))

/-- DECODE_GROUP (R75) on the bytes of a group in stream order. -/
def decodeGroup (a b c : Byte) : Word32 × Word32 := groupWords (pack a b c)

/-- R78, first evaluation: the quotient `v / 32767.0` rounded to binary64, then to binary32. -/
def viaBinary64 (v : Fixed16) : Word32 :=
  if v = 0 then 0
  else
    let d := roundSig 53 v.toInt.natAbs divisor
    rne32 (v.toInt < 0) d.1 (2 ^ d.2)

/-- R78, second evaluation: the product of `v` and the binary64 value nearest to 1/32767, rounded to binary64, then
to binary32. -/
def viaReciprocal64 (v : Fixed16) : Word32 :=
  if v = 0 then 0
  else
    let c := roundSig 53 1 divisor
    let d := roundSig 53 (v.toInt.natAbs * c.1) (2 ^ c.2)
    rne32 (v.toInt < 0) d.1 (2 ^ d.2)

/-- The reading R79 REJECTS: the product of `v` and the binary32 value nearest to 1/32767, rounded to binary32.
Nothing in the machine uses it. -/
def viaReciprocal32 (v : Fixed16) : Word32 :=
  let c := roundSig 24 1 divisor
  rne32 (v.toInt < 0) (v.toInt.natAbs * c.1) (2 ^ c.2)

end Sys2Proof.Machine
end

