-- ==== Sys2Proof/Machine/State.lean ====
section
/-! DEFINITION. Machine/State.lean: the state of the block (10_state.md R17), the parameter OUTQ_DEPTH, the host's side of
the ports, and how a step can stop. -/

namespace Sys2Proof.Machine

/-- An output token (R22). -/
inductive OutToken
  /-- `Word(w)`: one FC32 sample. -/
  | word (w : Word32)
  /-- `End`: the end of one output stream. -/
  | endMark
deriving DecidableEq, Repr

/-- Which host agent acts in a step (R11, R12). -/
inductive Turn
  /-- The producer offers the head of `inTokens`. -/
  | producer
  /-- The consumer is ready to take a token. -/
  | consumer
  /-- The controller drives the lines `clear` and `rst` (R55). -/
  | controller (clear rst : Bool)
deriving DecidableEq, Repr

/-- How a step can fault. -/
inductive Fault
  /-- `Fault(NotReset)` (R99), the only fault: raised by IN_BYTE, IN_END, OUT_WORD, OUT_END, CLEAR and the internal
  DECODE_GROUP while `live = false`. Safe: the model stops where the hardware goes on in an unknown way (R99: "Errs toward
  unprovable"). -/
  | notReset
deriving DecidableEq, Repr

/-- How a step can be refused. -/
inductive Refusal
  /-- The instruction has no meaning yet; raised by an arm of `exec` alone, and no arm of this model raises it. Safe. -/
  | notModelled (mnemonic : String)
deriving DecidableEq, Repr

/-- The state: the block's tuple `(live, phase, asm0, asm1, outq)` (R17), the input position, the parameter, and the host's side. -/
structure State where
  /-- True once a RESET has been applied (R23). -/
  live : Bool
  /-- The number of bytes of the current group accepted so far (R19, which allows `Fin 3`). -/
  phase : Fin 3
  /-- The first byte of the current group (R20). -/
  asm0 : Byte
  /-- The second byte of the current group (R20). -/
  asm1 : Byte
  /-- The FIFO of output tokens, head first (R21). -/
  outq : List OutToken
  /-- The number of bytes accepted so far in the current stream, the `n` of R33 and R34. The model's record of it (log entry 17):
  no meaning of the block reads it. -/
  inPos : Nat
  /-- The parameter OUTQ_DEPTH (R7, log entry 1); nothing writes it (R27). -/
  outqDepth : Nat
  /-- The producer's tokens not yet accepted, the head on offer (R48, R63, R120; log entry 2). -/
  inTokens : List InBits
  /-- The events the host agents have still to perform, in the order they are due (R11, R87, R124; log entry 2). The turn of an agent
  that waits stays here until the wait ends (R94, R100). -/
  turns : List Turn
  /-- The tokens delivered to the consumer, oldest first (R36, R84, R85; log entry 4). -/
  taken : List OutToken
deriving DecidableEq, Repr

/-- The state right after RESET with an output queue of `depth` entries (R30, R113; `inPos` by R33), nothing
offered and no turn placed. -/
def State.resetAt (depth : Nat) : State where
  live := true
  phase := 0
  asm0 := 0x00
  asm1 := 0x00
  outq := []
  inPos := 0
  outqDepth := depth
  inTokens := []
  turns := []
  taken := []

/-- The machine right after reset (R30, R113), at the reference depth (R7, log entry 1). -/
def State.reset : State := State.resetAt Config.referenceDepth

end Sys2Proof.Machine
end

