-- ==== Sys2Proof/Machine/Flags.lean ====
section
/-! DEFINITION. Machine/Flags.lean: the block has no flags (R24, R74). The only status the host can observe is computed
from the state: `in_ready` (R25), `out_valid` and `out_data` (R26). For `live = false` R25 and R26 leave these outputs
unknown, and no meaning reads them there (R99). -/

namespace Sys2Proof.Machine

/-- The free entries `in_ready` asks for: one group's words (R25). -/
def readyRoom : Nat := 2

/-- `in_ready(s) = (OUTQ_DEPTH - len(s.outq) >= 2)` (R25). -/
def State.inReady (s : State) : Bool := decide (s.outq.length + readyRoom ≤ s.outqDepth)

/-- `out_valid(s) = len(s.outq) > 0` (R26). -/
def State.outValid (s : State) : Bool := decide (0 < s.outq.length)

/-- `out_data(s) = Head(s.outq)`, defined only when `out_valid(s)` (R26). -/
def State.outData (s : State) : Option OutToken := s.outq.head?

/-- The `out_token` that carries a queue entry (R52): `Word(w)` is `{1'b0, w}`, `End` is `{1'b1, 32'h00000000}`. -/
def outTokenBits : OutToken → OutBits
  | .word w => 0#1 ++ w
  | .endMark => 1#1 ++ 0#32

end Sys2Proof.Machine
end

