-- ==== Sys2Proof/Machine/Ops.lean ====
section
/-! DEFINITION. Machine/Ops.lean: the named operations on the state that the meanings share (00_scope.md R10), the one way a
step faults (R99), and the handshake of each port (R63, R87). The block takes no exception and returns from none
(R98, R104, R105), so there is no exception entry here. -/

namespace Sys2Proof.Machine

/-- What a step of this machine answers. -/
abbrev StepOutcome := Host.Outcome State Fault Refusal

/-- `Enq(s.outq, t)` (R10). -/
def State.enq (s : State) (t : OutToken) : State := { s with outq := s.outq ++ [t] }

/-- `Deq(s.outq)` together with the delivery of the token `t` to the consumer (R10, R84, R85). -/
def State.deliver (s : State) (t : OutToken) : State :=
  { s with outq := s.outq.tail, taken := s.taken ++ [t] }

/-- `s.phase <- n`. -/
def State.setPhase (s : State) (n : Fin 3) : State := { s with phase := n }

/-- One more byte of the current stream has been accepted (R33). -/
def State.countByte (s : State) : State := { s with inPos := s.inPos + 1 }

/-- `s.phase <- 0` at a start-of-stream point (R14, R31), where the numbering of the bytes restarts at 0 (R33). -/
def State.startStream (s : State) : State := { s with phase := 0, inPos := 0 }

/-- `s.asm0 <- d`. -/
def State.setAsm0 (s : State) (d : Byte) : State := { s with asm0 := d }

/-- `s.asm1 <- d`. -/
def State.setAsm1 (s : State) (d : Byte) : State := { s with asm1 := d }

/-- `s.outq <- empty`. -/
def State.clearQueue (s : State) : State := { s with outq := [] }

/-- `s.live <- true`. -/
def State.goLive (s : State) : State := { s with live := true }

/-- Accept the third byte of the packed group `p`: decode it and hand over both words, sample 0 first, with `phase` back to 0, in
one step (R46, R75, R82 case 2). -/
def State.completeGroup (s : State) (p : Packed24) : State :=
  (((s.enq (.word (groupWords p).1)).enq (.word (groupWords p).2)).setPhase 0).countByte

/-- `if not s.live: raise Fault(NotReset)` (R99), else `k`. -/
def State.whenLive (s : State) (k : StepOutcome) : StepOutcome :=
  if s.live then k else .fault .notReset

/-- The input handshake (R63, R82, R83, R87): with `in_ready` high the transfer happens; with it low the token waits, there is
no step and no fault, and the state is kept (R94, R100, R112; log entry 3). -/
def State.acceptInput (s : State) (f : State → State) : StepOutcome :=
  s.whenLive (if s.inReady then .next (f s) else .next s)

/-- The output handshake (R63, R84, R85, R87): with `t` at the head of `outq` it is dequeued and delivered; otherwise
the step is not enabled, the consumer waits and the state is kept (R84, R100, R112; log entry 3). -/
def State.giveOutput (s : State) (t : OutToken) : StepOutcome :=
  s.whenLive (if s.outData = some t then .next (s.deliver t) else .next s)

end Sys2Proof.Machine
end

