-- ==== Sys2Proof/Machine/Control.lean ====
section
/-! DEFINITION. Machine/Control.lean: the control events CLEAR (41_stream.md R86) and RESET
(70_reset_and_hazards.md R113). -/

namespace Sys2Proof.Machine

/-- CLEAR (R86): the partial group and every untaken token are discarded; no `End` is enqueued. -/
def execClear (s : State) : StepOutcome := s.whenLive (.next s.clearQueue.startStream)

/-- RESET (R113): always enabled, never faults; the values of R30. -/
def execReset (s : State) : StepOutcome :=
  .next ((s.goLive.startStream.setAsm0 0x00).setAsm1 0x00).clearQueue

end Sys2Proof.Machine
end

