-- ==== Sys2Proof/Machine/Input.lean ====
section
/-! DEFINITION. Machine/Input.lean: the input tokens (41_stream.md R82, R83) and the group decode they fire
(40_datapath.md R75). -/

namespace Sys2Proof.Machine

/-- R82's case distinction on `phase`: the first byte to `asm0`, the second to `asm1`, the third completes the group. -/
def State.putByte (d : Byte) (s : State) : State :=
  if s.phase = 0 then ((s.setAsm0 d).setPhase 1).countByte
  else if s.phase = 1 then ((s.setAsm1 d).setPhase 2).countByte
  else s.completeGroup (pack s.asm0 s.asm1 d)

/-- R83: the leftover bytes are discarded by `phase <- 0`, and `End` goes in behind every word; the next stream starts here (R14). -/
def State.putEnd (s : State) : State := s.startStream.enq .endMark

/-- IN_BYTE (R82). -/
def execInByte (d : Byte) (s : State) : StepOutcome := s.acceptInput (State.putByte d)

/-- IN_END (R83); the reserved field `_r` has no effect (R51). -/
def execInEnd (_r : Byte) (s : State) : StepOutcome := s.acceptInput State.putEnd

/-- The group `p` is the one the block completes by accepting its third byte: `phase = 2`, `a = s.asm0`, `b = s.asm1`
(R75, Operands). -/
def State.holdsGroup (s : State) (p : Packed24) : Bool :=
  s.phase == 2 && s.asm0 == byteA p && s.asm1 == byteB p

/-- DECODE_GROUP (R75), internal: it fires in the IN_BYTE step that accepts the third byte of its group, so it has that step's
enabling and that step's effect. On a triplet that is not the group the block is completing it does not fire (log entry 6). -/
def execDecodeGroup (h l : Raw12) (s : State) : StepOutcome :=
  s.acceptInput fun s => if s.holdsGroup (triplet h l) then s.completeGroup (triplet h l) else s

end Sys2Proof.Machine
end

