-- ==== Sys2Proof/Machine/Output.lean ====
section
/-! DEFINITION. Machine/Output.lean: the output tokens (41_stream.md R84, R85). -/

namespace Sys2Proof.Machine

/-- OUT_WORD (R84): the consumer takes `w`, the word at the head of `outq`. -/
def execOutWord (w : Word32) (s : State) : StepOutcome := s.giveOutput (.word w)

/-- OUT_END (R85): the consumer takes the end-of-stream marker at the head of `outq`. -/
def execOutEnd (s : State) : StepOutcome := s.giveOutput .endMark

end Sys2Proof.Machine
end

