-- ==== Sys2Proof/Syntax.lean ====
section
/-! DEFINITION. Syntax.lean: the seven rows of spec/opcode_table.json, one constructor each. -/

namespace Sys2Proof

/-- One transaction of the block (R2, R81), with the operands its encoding carries. -/
inductive Instr
  /-- IN_BYTE (R50, R82): the producer transfers the byte `d`. -/
  | inByte (d : Byte)
  /-- IN_END (R51, R83): the producer ends the stream; `r` is the reserved, ignored field. -/
  | inEnd (r : Byte)
  /-- OUT_WORD (R53, R84): the consumer takes the word `w`, which the block supplies. -/
  | outWord (w : Word32)
  /-- OUT_END (R54, R85): the consumer takes the end-of-stream marker. -/
  | outEnd
  /-- CLEAR (R55, R86): the controller aborts the current stream. -/
  | clear
  /-- RESET (R55, R113): the controller resets the block. -/
  | reset
  /-- DECODE_GROUP (R57, R75): the internal operation on the triplet with `h` = `s1_raw`, `l` = `s0_raw`. -/
  | decodeGroup (h l : Raw12)
deriving DecidableEq, Repr

end Sys2Proof
end

