-- ==== Sys2Proof/Machine/Dispatch.lean ====
section
/-! DEFINITION. Machine/Dispatch.lean: one arm per row of spec/opcode_table.json. -/

namespace Sys2Proof.Machine

def exec (i : Instr) (s : State) : Host.Outcome State Fault Refusal :=
  match i with
  | .inByte d => Sys2Proof.Machine.execInByte d s
  | .inEnd r => Sys2Proof.Machine.execInEnd r s
  | .outWord w => Sys2Proof.Machine.execOutWord w s
  | .outEnd => Sys2Proof.Machine.execOutEnd s
  | .clear => Sys2Proof.Machine.execClear s
  | .reset => Sys2Proof.Machine.execReset s
  | .decodeGroup h l => Sys2Proof.Machine.execDecodeGroup h l s

end Sys2Proof.Machine
end

