-- ==== Sys2Proof/Decode.lean ====
section
/-! DEFINITION. Decode.lean: the tokens on the block's ports, as 30_encoding.md lays them out, to instructions and back.
The block fetches no instruction words (R47): what is decoded is what stands on a port. -/

namespace Sys2Proof

/-- What stands on one port in one step (R48). -/
inductive Wire
  /-- `in_token`, 9 bits (R49). -/
  | inToken (t : InBits)
  /-- `out_token`, 33 bits (R52). -/
  | outToken (t : OutBits)
  /-- The control inputs `clear` and `rst` (R55). -/
  | control (clear rst : Bool)
  /-- The internal triplet of a complete group (R57). -/
  | triplet (p : Packed24)
deriving DecidableEq, Repr

/-- Why nothing is decoded. -/
inductive DecodeError
  /-- Both control lines are low: no event (R55). Safe: the block steps only by events. -/
  | noEvent
  /-- A table word has bits set above its token's width. Safe: no port carries such a word (R60). -/
  | strayBits
  /-- A table word is wider than every token (R60). Safe: no port carries it. -/
  | tooWide
deriving DecidableEq, Repr

/-- The input port (R58): bit 8 alone chooses; every one of the 512 values is a token. -/
def decodeIn (t : InBits) : Instr :=
  if t.getLsbD 8 then .inEnd (t.extractLsb' 0 8) else .inByte (t.extractLsb' 0 8)

/-- The output port, as the consumer decodes it (R58, R54: "may decode on bit 32 alone"; log entry 7). -/
def decodeOut (t : OutBits) : Instr :=
  if t.getLsbD 32 then .outEnd else .outWord (t.extractLsb' 0 32)

/-- The control inputs (R55): when both are high, RESET takes effect and CLEAR adds nothing. -/
def decodeControl (clear rst : Bool) : Except DecodeError Instr :=
  if rst then .ok .reset else if clear then .ok .clear else .error .noEvent

/-- The triplet of DECODE_GROUP (R57): `s1_raw` in bits 23:12, `s0_raw` in bits 11:0. -/
def decodeTriplet (p : Packed24) : Instr := .decodeGroup (p.extractLsb' 12 12) (p.extractLsb' 0 12)

/-- The decoder of every port. -/
def decode : Wire → Except DecodeError Instr
  | .inToken t => .ok (decodeIn t)
  | .outToken t => .ok (decodeOut t)
  | .control clear rst => decodeControl clear rst
  | .triplet p => .ok (decodeTriplet p)

/-- The encoder (R50, R51, R53, R54, R55, R57). -/
def encode : Instr → Wire
  | .inByte d => .inToken (0#1 ++ d)
  | .inEnd r => .inToken (1#1 ++ r)
  | .outWord w => .outToken (0#1 ++ w)
  | .outEnd => .outToken (1#1 ++ 0#32)
  | .clear => .control true false
  | .reset => .control false true
  | .decodeGroup h l => .triplet (h ++ l)

/-- A table word of `nbits` bits (whole bytes) as the port that carries it: the rows have 1, 9, 24 and 33 bits. The
table gives CLEAR and RESET the same word (1 on a line of its own), so the word alone cannot name the line; a lone 1 is
taken as `rst`, which has priority (R55, R103; log entry 8). -/
def wireOfWord (nbits w : Nat) : Except DecodeError Wire :=
  if nbits ≤ 8 then
    if w < 2 ^ 1 then .ok (.control false (w == 1)) else .error .strayBits
  else if nbits ≤ 16 then
    if w < 2 ^ 9 then .ok (.inToken (BitVec.ofNat 9 w)) else .error .strayBits
  else if nbits ≤ 24 then
    if w < 2 ^ 24 then .ok (.triplet (BitVec.ofNat 24 w)) else .error .strayBits
  else if nbits ≤ 40 then
    if w < 2 ^ 33 then .ok (.outToken (BitVec.ofNat 33 w)) else .error .strayBits
  else .error .tooWide

/-- The instruction the decoder reads from a word of spec/opcode_table.json. -/
def decodeTableWord (nbits w : Nat) : Option Instr :=
  match wireOfWord nbits w with
  | .error _ => none
  | .ok wire =>
    match decode wire with
    | .ok i => some i
    | .error _ => none

/-- The word of an instruction as spec/opcode_table.json numbers its bits. -/
def tableWord (i : Instr) : Nat :=
  match encode i with
  | .inToken t => t.toNat
  | .outToken t => t.toNat
  | .control _ _ => 1
  | .triplet p => p.toNat

/-- The width the table gives the instruction's row. -/
def tableWidth : Instr → Nat
  | .inByte _ => 9
  | .inEnd _ => 9
  | .outWord _ => 33
  | .outEnd => 33
  | .clear => 1
  | .reset => 1
  | .decodeGroup _ _ => 24

/-- The `mask` of the instruction's row. -/
def tableMask : Instr → Nat
  | .inByte _ => 0x100
  | .inEnd _ => 0x100
  | .outWord _ => 0x100000000
  | .outEnd => 0x1FFFFFFFF
  | .clear => 0x1
  | .reset => 0x1
  | .decodeGroup _ _ => 0x000000

/-- The `match` of the instruction's row. -/
def tableMatch : Instr → Nat
  | .inByte _ => 0x000
  | .inEnd _ => 0x100
  | .outWord _ => 0x000000000
  | .outEnd => 0x100000000
  | .clear => 0x1
  | .reset => 0x1
  | .decodeGroup _ _ => 0x000000

end Sys2Proof
end

