-- ==== Sys2Proof/Machine/Fetch.lean ====
section
/-! DEFINITION. Machine/Fetch.lean: which transaction the next step is. The block fetches no instructions (R47) and never
steps on its own (R12): the agent whose turn it is brings the transaction, read off its port by the decoder. -/

namespace Sys2Proof.Machine

/-- The instruction on a wire, if there is one. -/
def fetchWire (w : Wire) : Option Instr :=
  match decode w with
  | .ok i => some i
  | .error _ => none

/-- The agent of this turn waits for the block's side of its handshake: the producer with a token on offer while `in_ready` is low
(R94, R100 item 1), the consumer while `outq` is empty (R84, R100 item 2). The controller never waits (R86, R113). Before the
first RESET nobody waits: a transfer there is a step that faults (R63, R87, R99; log entry 5). -/
def State.waits (s : State) : Turn → Bool
  | .producer => s.live && !s.inTokens.isEmpty && !s.inReady
  | .consumer => s.live && s.outq.isEmpty
  | .controller _ _ => false

/-- The turn of the next step: the earliest whose agent does not wait. A waiting agent gates no other (R87), and its turn stays
until the other agents end the wait (R61, R94, R100; log entry 12). -/
def State.nextTurn (s : State) : Option Turn := s.turns.find? fun u => !s.waits u

/-- The transaction of the next step. The producer's is its offered token; the consumer's is the block's `out_token` (R26,
R63); the controller's is what its lines say (R55). There is none when no agent can act (R100, R112) or when the agent drives
nothing: a producer that offers no token, a controller with both lines low. With nothing listed in `outq` the consumer acts only
before the first RESET, where `out_valid` and `out_token` are unknown (R26, R114); OUT_END stands for its transfer, and like
every transfer there it faults (R63, R99; log entry 5). -/
def State.fetch (s : State) : Option Instr :=
  match s.nextTurn with
  | none => none
  | some .producer =>
    match s.inTokens with
    | [] => none
    | t :: _ => fetchWire (.inToken t)
  | some .consumer =>
    match s.outData with
    | some t => fetchWire (.outToken (outTokenBits t))
    | none => some .outEnd
  | some (.controller clear rst) => fetchWire (.control clear rst)

/-- The host's side after the next step: the turn taken is over, and the producer's transferred token is no longer on offer (R63). Every
other turn, and a token on offer under another agent's step, stays (R94, R120). -/
def State.advance (s : State) : State :=
  { s with
    turns := s.turns.eraseP fun u => !s.waits u
    inTokens := if s.nextTurn = some .producer then s.inTokens.tail else s.inTokens }

/-- The queue entry an `out_token` carries (R52; a consumer may read bit 32 alone, R54). -/
def outTokenOfBits (t : OutBits) : OutToken :=
  if t.getLsbD 32 then .endMark else .word (t.extractLsb' 0 32)

/-- `s` with room for an input token: as it is while `in_ready` is high, else with its queue taken (log entry 8). -/
def State.makeRoom (s : State) : State := if s.inReady then s else { s with outq := [] }

/-- `s` with the transaction on a wire as the very next step: a token on offer with the producer's turn; the head of `outq` with the
consumer's turn; the controller's turn; or, for the internal triplet, the two bytes already accepted and the third on offer
(log entry 8). -/
def State.place (s : State) : Wire → State
  | .inToken t => { s.makeRoom with inTokens := t :: s.inTokens, turns := .producer :: s.turns }
  | .outToken t => { s with outq := outTokenOfBits t :: s.outq.tail, turns := .consumer :: s.turns }
  | .control clear rst => { s with turns := .controller clear rst :: s.turns }
  | .triplet p =>
    { s.makeRoom with
      phase := 2
      inPos := 2
      asm0 := byteA p
      asm1 := byteB p
      inTokens := (0#1 ++ byteC p) :: s.inTokens
      turns := .producer :: s.turns }

end Sys2Proof.Machine
end

