-- ==== Sys2Proof/Machine/Step.lean ====
section
/-! DEFINITION. Machine/Step.lean: one step of the machine: one transaction, joined with one host agent (R11, R12). -/

namespace Sys2Proof.Machine

/-- One step: the transaction of the agent whose turn it is (`State.nextTurn`), run by `exec` once the host's side has moved on (its
turn is over, a transferred token is off the port). With no transaction the block takes no step and its state is kept (R112); where
every agent that has a turn waits, the host's side is kept too (R100). -/
def step (s : State) : Host.Outcome State Fault Refusal :=
  match s.fetch with
  | none => .next s.advance
  | some i => exec i s.advance

/-- `s` with a word of spec/opcode_table.json where the next step finds its transaction (log entry 8). -/
def State.withFetchWord (s : State) (nbits w : Nat) : State :=
  match wireOfWord nbits w with
  | .error _ => s
  | .ok wire => s.place wire

end Sys2Proof.Machine
end

