-- ==== Sys2Proof/Machine/Cycle.lean ====
section
/-! DEFINITION. Machine/Cycle.lean: one cycle of a clocked implementation as turns of the transaction-level machine
(60_exceptions.md R103, 70_reset_and_hazards.md R120, decision D13). -/

namespace Sys2Proof.Machine

/-- What the host drives in one cycle (R48); `in_token` is the head of `inTokens`. -/
structure Pins where
  /-- `rst`. -/
  rst : Bool
  /-- `clear`. -/
  clear : Bool
  /-- `in_valid`. -/
  inValid : Bool
  /-- `out_ready`. -/
  outReady : Bool
deriving DecidableEq, Repr

/-- The consumer transfers in this cycle: `out_valid` and `out_ready` are both high (R63). Before the first RESET `out_valid` is
unknown and the transfer is taken to happen (R63, R99). -/
def State.outTransfer (s : State) (p : Pins) : Bool := p.outReady && (!s.live || s.outValid)

/-- The producer transfers in this cycle: `in_valid` and `in_ready` are both high (R63), `in_ready` computed from the state at
the start of the cycle (R103). Before the first RESET `in_ready` is unknown and the transfer is taken to happen (R63, R99). -/
def State.inTransfer (s : State) (p : Pins) : Bool := p.inValid && (!s.live || s.inReady)

/-- The order in which one cycle's events take effect (R103): RESET, then CLEAR, either cancelling every transfer; otherwise the
output transfer, then the input transfer. -/
def State.cycleTurns (s : State) (p : Pins) : List Turn :=
  if p.rst || p.clear then [.controller p.clear p.rst]
  else
    (if s.outTransfer p then [.consumer] else []) ++ (if s.inTransfer p then [.producer] else [])

/-- `s` with the turns of one cycle placed before the others. -/
def State.withCycle (s : State) (p : Pins) : State := { s with turns := s.cycleTurns p ++ s.turns }

end Sys2Proof.Machine
end

