-- ==== Sys2Proof/Machine/Run.lean ====
section
/-! DEFINITION. Machine/Run.lean: runs: several steps, with or without control events among them. -/

namespace Sys2Proof.Machine

/-- `n` steps, stopping at the first fault or refusal; a faulted run has no later state (R99). -/
def runSteps : Nat → State → StepOutcome
  | 0, s => .next s
  | n + 1, s =>
    match step s with
    | .next t => runSteps n t
    | .fault r => .fault r
    | .refused r => .refused r

/-- The turn is a CLEAR or RESET event: a controller with a line high (R55). -/
def Turn.isEvent : Turn → Bool
  | .producer => false
  | .consumer => false
  | .controller clear rst => clear || rst

/-- `n` steps, none of them a CLEAR or RESET: the state they reach, or none where such an event is next or a step stops (R89, R91,
R126 item 4). What comes after the last of them is left open. -/
def transferRun : Nat → State → Option State
  | 0, s => some s
  | n + 1, s =>
    if s.nextTurn.any Turn.isEvent then none
    else
      match step s with
      | .next t => transferRun n t
      | .fault _ => none
      | .refused _ => none

end Sys2Proof.Machine
end

