-- ==== Sys2Proof/Machine/Stream.lean ====
section
/-! DEFINITION. Machine/Stream.lean: the streams as the host sees them: the stream function F (41_stream.md R89), the input
tokens of a stream (R14, R62) and the bytes of an output file (20_memory.md R37). -/

namespace Sys2Proof.Machine

/-- The words of `F(x)` (R89): two for each complete group, and none for the 1 or 2 leftover bytes (R41). -/
def streamWords : List Byte → List OutToken
  | a :: b :: c :: rest =>
    .word (decodeGroup a b c).1 :: .word (decodeGroup a b c).2 :: streamWords rest
  | _ => []

/-- The stream function `F(x)` (R89). -/
def streamOutput (x : List Byte) : List OutToken := streamWords x ++ [.endMark]

/-- The IN_BYTE token of a byte (R50). -/
def byteToken (d : Byte) : InBits := 0#1 ++ d

/-- The IN_END token a producer should drive (R51). -/
def endToken : InBits := 0x100

/-- The input tokens of a whole stream: its bytes in order, then IN_END (R62 STREAM, R125). -/
def streamTokens (x : List Byte) : List InBits := x.map byteToken ++ [endToken]

/-- The four file bytes of a word, least significant first (R37). -/
def wordBytes (w : Word32) : List Byte :=
  [w.extractLsb' 0 8, w.extractLsb' 8 8, w.extractLsb' 16 8, w.extractLsb' 24 8]

/-- The bytes the consumer writes for the tokens it took (R37); `End` closes the file and writes none (R85). -/
def fileBytes : List OutToken → List Byte
  | [] => []
  | .word w :: rest => wordBytes w ++ fileBytes rest
  | .endMark :: rest => fileBytes rest

end Sys2Proof.Machine
end

