-- ==== Sys2Proof/Machine/Program.lean ====
section
/-! DEFINITION. Machine/Program.lean: the token-program notation (30_encoding.md R61, R62) carried out on the
machine. It adds no behaviour (decision D17). -/

namespace Sys2Proof.Machine

/-- A line of a token program (R61). -/
inductive Line
  /-- `BYTE 0xNN`. -/
  | byte (d : Byte)
  /-- `END`. -/
  | endStream
  /-- `TAKE`. -/
  | take
  /-- `CLEAR`. -/
  | clear
  /-- `RESET`. -/
  | reset
deriving DecidableEq, Repr

/-- The input token a line offers (R61). -/
def Line.tokens : Line → List InBits
  | .byte d => [byteToken d]
  | .endStream => [endToken]
  | .take => []
  | .clear => []
  | .reset => []

/-- The agent a line names (R61). -/
def Line.turn : Line → Turn
  | .byte _ => .producer
  | .endStream => .producer
  | .take => .consumer
  | .clear => .controller true false
  | .reset => .controller false true

/-- `s` with the event of one line handed to the agent the line names, behind what that agent has still to do. -/
def State.load (s : State) (line : Line) : State :=
  { s with inTokens := s.inTokens ++ line.tokens, turns := s.turns ++ [line.turn] }

/-- Every step that the events handed over allow: each step of a live block uses up one turn, until only agents that wait are left. -/
def State.settle (s : State) : StepOutcome := runSteps s.turns.length s

/-- A program carried out in order, one event a line (R61). A `BYTE` or `END` line offers its token: with `in_ready` low the token waits,
the program goes on, and the `TAKE` that makes room lets the token in before the next line. A `TAKE` line with `out_valid` low is not
carried out, and holds the program: no later line could end that wait without going out of order. A fault ends the run (R99). -/
def runProgram : List Line → State → StepOutcome
  | [], s => .next s
  | line :: lines, s =>
    match (s.load line).settle with
    | .next t => if Turn.consumer ∈ t.turns then .next t else runProgram lines t
    | .fault r => .fault r
    | .refused r => .refused r

/-- `GROUP a, b, c` (R62). -/
def groupLines (a b c : Byte) : List Line := [.byte a, .byte b, .byte c]

/-- `STREAM x0, ..., x(n-1)` (R62); with no operands it is `END` alone. -/
def streamLines (x : List Byte) : List Line := x.map Line.byte ++ [.endStream]

/-- The `TAKE` lines of a `DRAIN` at the state `s`, at most `n` of them: one after the other while `out_valid` is high (R62), that is,
while the consumer would not wait, each letting a waiting token in before that is looked at again. Before the first RESET
`out_valid` is unknown (R26, R114); DESIGN CHOICE: there `DRAIN` is one `TAKE`, which faults, whatever `outq` lists (R99; log
entry 5). -/
def State.drainFrom : Nat → State → List Line
  | 0, _ => []
  | n + 1, s =>
    if s.waits .consumer then []
    else
      .take :: match (s.load .take).settle with
        | .next t => t.drainFrom n
        | .fault _ => []
        | .refused _ => []

/-- `DRAIN` (R62) at the state `s`. The bound is no limit: a queued token is one `TAKE`, a token on offer adds at most two (R25), and before
the first RESET one `TAKE` faults. -/
def State.drainLines (s : State) : List Line := s.drainFrom (s.outq.length + 2 * s.inTokens.length + 1)

/-- `PAIR w0, w1` (R62): the expected output of a group. -/
def pairOutput (w0 w1 : Word32) : List OutToken := [.word w0, .word w1]

end Sys2Proof.Machine
end

