-- ==== Sys2Proof/Safety.lean ====
section
/-! DEFINITION. Safety.lean: the terms claims are stated in: the invariant, start-of-stream points, waits, launch
premises and how a run ends. -/

namespace Sys2Proof.Machine

/-- A word SAMPLE can produce: +0.0, or a word with `exp` in 116 to 127 (R72, R73). -/
def sampleWord (w : Word32) : Bool := w == 0 || (116 ≤ f32Exp w && f32Exp w ≤ 127)

/-- A token the block can hold: `End`, or a word of `sampleWord`. -/
def OutToken.isSample : OutToken → Bool
  | .word w => sampleWord w
  | .endMark => true

/-- What holds in every state reachable from a RESET (R28, with `phase` of R34, the parameter's range of R7 and the words of R73). R28's
`phase` in 0 to 2 holds by its type, and its order of `End` behind earlier words is that of the FIFO (R43): no transaction but a CLEAR
or RESET changes `taken ++ outq` except at its tail. -/
abbrev State.Inv (s : State) : Prop :=
  s.live = true ∧ Config.minDepth ≤ s.outqDepth ∧ s.outq.length ≤ s.outqDepth ∧ (s.phase : Nat) = s.inPos % 3 ∧
    ∀ t ∈ s.outq ++ s.taken, t.isSample = true

/-- A live block at a start-of-stream point: a RESET, a CLEAR or an IN_END was the last event but for taking output, so no byte of the
stream has been accepted and `phase = 0` (R14, R31, R33). -/
abbrev State.AtStreamStart (s : State) : Prop := s.live = true ∧ s.inPos = 0 ∧ s.phase = 0

/-- The producer waits: its turn is due, it offers a token, and `in_ready` is low (R94, R100 item 1). -/
abbrev State.ProducerWaits (s : State) : Prop :=
  s.live = true ∧ .producer ∈ s.turns ∧ s.inTokens ≠ [] ∧ s.inReady = false

/-- The consumer waits: its turn is due, and `outq` is empty (R100 item 2). -/
abbrev State.ConsumerWaits (s : State) : Prop := s.live = true ∧ .consumer ∈ s.turns ∧ s.outq = []

/-- A stuck state (R100): no agent that has an event due can act, and something is left that only the host can end: an agent's due turn, a
token on offer while `in_ready` is low (R100 item 1), or an output that is never taken (U13 of 93_implementation_defined.md). The
last two need no turn: that nobody is due to act is what leaves them waiting (DEDUCED, log entry 20). -/
abbrev State.Stuck (s : State) : Prop :=
  s.live = true ∧ (∀ u ∈ s.turns, s.waits u = true) ∧
    (s.turns ≠ [] ∨ (s.inTokens ≠ [] ∧ s.inReady = false) ∨ s.outq ≠ [])

/-- The `End`s still owed to the consumer: those of the streams the producer ended with IN_END after the last CLEAR or RESET (either
empties `outq`) and the consumer has not taken (R124). -/
def State.endsOwed (s : State) : Nat := s.outq.count .endMark

/-- The end of a run, its three clauses in order (R124): the host has no further event to perform, `outq` is empty, and every `End` has been
taken. Before the first RESET the contents of `outq` are unknown (R114), so `outq` is not known to be empty whatever it lists; DESIGN
CHOICE: a run that stops there has not reached its end (log entry 18). R124 leaves open what happens to bytes offered but never
accepted; DESIGN CHOICE: a token still listed in `inTokens` is an event the host has still to perform, also where no turn is left for
it, so the run has not reached its end (log entry 19). -/
abbrev State.Ended (s : State) : Prop :=
  s.live = true ∧ (s.turns = [] ∧ s.inTokens = []) ∧ s.outq = [] ∧ s.endsOwed = 0

/-- A run ends well when it reaches its end (R124). -/
def EndsWell (o : StepOutcome) : Prop := ∃ t, o = .next t ∧ t.Ended

/-- A run ends badly when `Fault(NotReset)` was recorded or it stops in a stuck state (R124). -/
def EndsBadly (o : StepOutcome) : Prop := o = .fault .notReset ∨ ∃ t, o = .next t ∧ t.Stuck

/-- The launch premises of a claim about the stream `x`, its items in order (R126): a live block (a faulted run has no state, R99) at a
start-of-stream point; an `outq` that is empty or ends in `End`; the producer to send the stream's tokens next, before `rest`; and a
list of turns that begins with `a`, which has no CLEAR or RESET in it and has turns enough for the producer to send the stream and for
the consumer to take every token up to the stream's `End`. Anything may follow in `b`. -/
abbrev State.Launched (s : State) (x : List Byte) (rest : List InBits) (a b : List Turn) : Prop :=
  s.AtStreamStart ∧ (s.outq = [] ∨ s.outq.getLast? = some .endMark) ∧
    s.inTokens = streamTokens x ++ rest ∧ s.turns = a ++ b ∧ (∀ u ∈ a, u.isEvent = false) ∧
    x.length + 1 ≤ a.count .producer ∧ s.outq.length + (streamOutput x).length ≤ a.count .consumer

/-- The states of two blocks that differ only in bytes nothing reads again: `asm0` unless `phase ≥ 1`, `asm1` unless
`phase = 2` (R20, R31, R116). -/
abbrev State.SameUpToDeadBytes (s t : State) : Prop :=
  s.live = t.live ∧ s.phase = t.phase ∧ s.outq = t.outq ∧ s.inPos = t.inPos ∧ s.outqDepth = t.outqDepth ∧
    s.inTokens = t.inTokens ∧ s.turns = t.turns ∧ s.taken = t.taken ∧ (s.phase ≠ 0 → s.asm0 = t.asm0) ∧
    (s.phase = 2 → s.asm1 = t.asm1)

end Sys2Proof.Machine
end

