-- ==== Sys2Proof/WellFormed.lean ====
section
/-! DEFINITION. WellFormed.lean: what a token should look like beyond being decodable. Every token decodes
(R58, R59), and every meaning in Machine/ holds for ill-formed instructions too; these checks only say which
tokens a host should drive (R51) and which words the block may drive (R56). -/

namespace Sys2Proof

/-- The syntactic checks of one instruction. -/
def Instr.wellFormed : Instr → Bool
  | .inByte _ => true
  /- R51: "The producer should drive them 0." -/
  | .inEnd r => r == 0
  /- R56: the block produces +0.0 and normal words, never an infinity, a NaN, a subnormal or -0.0. -/
  | .outWord w => Machine.f32Plain w
  | .outEnd => true
  | .clear => true
  | .reset => true
  | .decodeGroup _ _ => true

end Sys2Proof
end

