-- ==== Sys2Proof/Certificates/Slice0/Obligations.lean ====
section
/-! DEFINITION. Certificates/Slice0/Obligations.lean: the statements about the block, for the provers. Each docstring names the rule
of spec/ it formalises, or says what it rests on. A statement over all states holds at every OUTQ_DEPTH, since
`outqDepth` is a field of the state (log entry 1). -/

open Sys2Proof Sys2Proof.Machine

/-! ## The datapath (40_datapath.md) -/

/-- R65: PACK puts the three bytes side by side, so `|` equals `+` and `packed` is below 2^24. -/
def Obligations.PackPlacesTheBytes : Prop :=
  ∀ a b c : Byte,
    (pack a b c).extractLsb' 0 8 = a ∧ (pack a b c).extractLsb' 8 8 = b ∧ (pack a b c).extractLsb' 16 8 = c ∧
      (pack a b c).toNat = a.toNat + b.toNat * 2 ^ 8 + c.toNat * 2 ^ 16 ∧ (pack a b c).toNat ≤ 0xFFFFFF ∧
      pack 0xFF 0x0F 0x00 = 0x000FFF

/-- R66, R67: the two unpackers select `packed[11:0]` and `packed[23:12]`, in bytes `{b[3:0], a}` and `{c, b[7:4]}`. -/
def Obligations.UnpackSelectsTheLanes : Prop :=
  (∀ p : Packed24, unpackS0 p = p.extractLsb' 0 12 ∧ unpackS1 p = p.extractLsb' 12 12) ∧
    (∀ a b c : Byte,
      unpackS0 (pack a b c) = b.extractLsb' 0 4 ++ a ∧ unpackS1 (pack a b c) = c ++ b.extractLsb' 4 4) ∧
    unpackS0 0x000FFF = 0xFFF ∧ unpackS1 0x000FFF = 0x000

/-- R68 (and the integer law R76): the pattern is `raw << 4`, its signed reading is exactly `16 * sint(raw)`, a multiple of 16
in -32768 to 32752, with the four boundary values. -/
def Obligations.SignExtenderScalesBySixteen : Prop :=
  (∀ raw : Raw12,
    (sx16 raw).toNat = raw.toNat * 2 ^ 4 ∧ (sx16 raw).extractLsb' 0 4 = 0 ∧
      (sx16 raw).toInt = 16 * raw.toInt ∧ -32768 ≤ (sx16 raw).toInt ∧ (sx16 raw).toInt ≤ 32752) ∧
    (sx16 0x000).toInt = 0 ∧ (sx16 0x7FF).toInt = 32752 ∧ (sx16 0x800).toInt = -32768 ∧ (sx16 0xFFF).toInt = -16

/-- R69: ITOF gives the binary32 value equal to its operand, +0.0 for 0. -/
def Obligations.IntToFloatIsExact : Prop :=
  (∀ v : Fixed16, f32Value (itof v) = some (v.toInt : Rat)) ∧ itof 0 = 0x00000000 ∧ itof (-16) = 0xC1800000

/-- R71, first equality: I2F is NORM after ITOF, on all of int16. -/
def Obligations.ConverterIsNormAfterIntToFloat : Prop :=
  ∀ v : Fixed16, normalise (itof v) = some (i2fBits v)

/-- R71, second equality, with R70's meaning of RNE32: for every int16 `v`, the word of R72's algorithm has a value, and that value is
STRICTLY nearer to `v / 32767` than the value of every other word (no tie occurs), zeros of either sign counted as one. -/
def Obligations.ConverterRoundsToNearest : Prop :=
  ∀ v : Fixed16, ∃ y : Rat, f32Value (i2fBits v) = some y ∧
    ∀ (w : Word32) (z : Rat), f32Value w = some z → z ≠ y →
      |y - (v.toInt : Rat) / 32767| < |z - (v.toInt : Rat) / 32767|

/-- R72's bracket and bounds: for `1 ≤ m ≤ 32768` the shift `k` meets `2^23 * 32767 ≤ m * 2^k < 2^24 * 32767` and lies in 23 to 38, it
is the only such `k`, the rounded significand is in `[2^23, 2^24)`, so the carry branch is never taken. -/
def Obligations.AlgorithmBracketsTheQuotient : Prop :=
  ∀ m : Nat, 1 ≤ m → m ≤ 32768 →
    2 ^ 23 * 32767 ≤ m * 2 ^ i2fShift m ∧ m * 2 ^ i2fShift m < 2 ^ 24 * 32767 ∧
      23 ≤ i2fShift m ∧ i2fShift m ≤ 38 ∧
      (∀ k : Nat, 2 ^ 23 * 32767 ≤ m * 2 ^ k → m * 2 ^ k < 2 ^ 24 * 32767 → k = i2fShift m) ∧
      2 ^ 23 ≤ i2fSig m ∧ i2fSig m < 2 ^ 24

/-- R73, odd symmetry: I2F(-v) is I2F(v) with bit 31 flipped, for `v` from -32767 to 32767 but 0, where R73's own first item (and
95_test_vectors.md section 2.3) makes both +0.0 (log entry 10); the block never outputs -0.0. -/
def Obligations.ConverterIsOdd : Prop :=
  (∀ v : Fixed16, v ≠ 0 → -32767 ≤ v.toInt → i2fBits (-v) = i2fBits v ^^^ 0x80000000) ∧
    ∀ v : Fixed16, i2fBits v ≠ 0x80000000

/-- R73, order: I2F is monotonic as real values; it is even strictly so. -/
def Obligations.ConverterIsStrictlyMonotonic : Prop :=
  ∀ v v' : Fixed16, v.toInt < v'.toInt →
    ∃ y y' : Rat, f32Value (i2fBits v) = some y ∧ f32Value (i2fBits v') = some y' ∧ y < y'

/-- R73, special values and exponents: I2F at 0, 32767, -32767 and -32768; every nonzero result has `exp` in 112 to 127, so no NaN,
infinity or subnormal is produced, and its magnitude lies in `[2^-15, 1.0000306]`. -/
def Obligations.ConverterResultsAreNormal : Prop :=
  i2fBits 0 = 0x00000000 ∧ i2fBits 32767 = 0x3F800000 ∧ i2fBits (-32767) = 0xBF800000 ∧
    i2fBits (-32768) = 0xBF800100 ∧
    ∀ v : Fixed16, v ≠ 0 →
      112 ≤ f32Exp (i2fBits v) ∧ f32Exp (i2fBits v) ≤ 127 ∧
        ∃ y : Rat, f32Value (i2fBits v) = some y ∧ 1 / 2 ^ 15 ≤ |y| ∧ |y| ≤ 1.0000306

/-- R73, inside the block: every sample lies in `[I2F(-32768), I2F(32752)]`, whose words are 0xBF800100 and 0x3F7FE200, and R72's exponent range
116 to 127 holds of every nonzero one; so every OUT_WORD of a sample is a well-formed one (R56). -/
def Obligations.SamplesStayInRange : Prop :=
  ∃ lo hi : Rat, f32Value 0xBF800100 = some lo ∧ f32Value 0x3F7FE200 = some hi ∧
    sample 0x800 = 0xBF800100 ∧ sample 0x7FF = 0x3F7FE200 ∧
    ∀ raw : Raw12, sampleWord (sample raw) = true ∧ (Instr.outWord (sample raw)).wellFormed = true ∧
      ∃ y : Rat, f32Value (sample raw) = some y ∧ lo ≤ y ∧ y ≤ hi

/-- R80: distinct raw values give distinct words. -/
def Obligations.SampleIsInjective : Prop :=
  ∀ raw raw' : Raw12, sample raw = sample raw' → raw = raw'

/-- R77: each lane goes through SX16 and I2F on its own, lane 0 first; no bit of one lane affects the other lane's word. -/
def Obligations.LanesAreIndependent : Prop :=
  (∀ p : Packed24,
    groupWords p = (i2fBits (sx16 (p.extractLsb' 0 12)), i2fBits (sx16 (p.extractLsb' 12 12)))) ∧
  (∀ a b c a' b' c' : Byte,
    (a = a' → b.extractLsb' 0 4 = b'.extractLsb' 0 4 → (decodeGroup a b c).1 = (decodeGroup a' b' c').1) ∧
      (c = c' → b.extractLsb' 4 4 = b'.extractLsb' 4 4 → (decodeGroup a b c).2 = (decodeGroup a' b' c').2))

/-- R75's example (the source's §8), its boundary values, and rows of 95_test_vectors.md section 2.4. -/
def Obligations.DecodeGroupWorkedExamples : Prop :=
  decodeGroup 0xFF 0x0F 0x00 = (0xBA000100, 0x00000000) ∧ decodeGroup 0x00 0x00 0x00 = (0x00000000, 0x00000000) ∧
    decodeGroup 0xFF 0xF7 0x7F = (0x3F7FE200, 0x3F7FE200) ∧ decodeGroup 0x00 0x08 0x80 = (0xBF800100, 0xBF800100) ∧
    decodeGroup 0x00 0x10 0x00 = (0x00000000, 0x3A000100) ∧ decodeGroup 0x34 0x12 0xAB = (0x3E8D011A, 0xBF29E154)

/-- R78: the binary64 quotient, and the product with the binary64 reciprocal, each rounded to binary32, agree with R72 on all of
int16. The product with the binary32 reciprocal 0x38000100 does not, at R79's raw sample 0x201. -/
def Obligations.BinarySixtyFourAgrees : Prop :=
  (∀ v : Fixed16, viaBinary64 v = i2fBits v ∧ viaReciprocal64 v = i2fBits v) ∧
    rne32 false 1 32767 = 0x38000100 ∧ sample 0x201 = 0x3E804101 ∧ viaReciprocal32 (sx16 0x201) = 0x3E804100

/-! ## Ports and encodings (30_encoding.md) -/

/-- Decode and encode agree: every instruction, with every operand its encoding admits, is read back from its own token, and its token carries
the bits of its rule (R50, R51, R53, R54, R57). -/
def Obligations.DecodeReadsBackEveryInstruction : Prop :=
  (∀ i : Instr, decode (encode i) = .ok i) ∧
    (∀ d : Byte, tableWord (.inByte d) = d.toNat) ∧ (∀ r : Byte, tableWord (.inEnd r) = 0x100 + r.toNat) ∧
    (∀ w : Word32, tableWord (.outWord w) = w.toNat) ∧ tableWord .outEnd = 0x100000000 ∧
    (∀ h l : Raw12, tableWord (.decodeGroup h l) = h.toNat * 2 ^ 12 + l.toNat)

/-- Table words: the decoder reads each row's instruction back from the word spec/opcode_table.json gives it. The table gives CLEAR and RESET one
word on two lines; that this word is read as RESET is the MODEL's choice (log entry 8). -/
def Obligations.TableWordsReadBack : Prop :=
  ∀ i : Instr, ∀ nbits : Nat, nbits = tableWidth i ∨ nbits = 8 * ((tableWidth i + 7) / 8) →
    decodeTableWord nbits (tableWord i) = some (if i = .clear then .reset else i)

/-- The other direction: a token is the encoding of what it decodes to, where its reserved bits are as driven (R54): all input tokens, all triplets,
and the output tokens the block drives. -/
def Obligations.EncodeReproducesTokens : Prop :=
  (∀ t : InBits, encode (decodeIn t) = .inToken t) ∧ (∀ p : Packed24, encode (decodeTriplet p) = .triplet p) ∧
    (∀ t : OutBits, t.toNat ≤ 0x100000000 → encode (decodeOut t) = .outToken t)

/-- R58: decoding is total on both ports, and the kind bit alone chooses the token. -/
def Obligations.KindBitAloneChooses : Prop :=
  (∀ t : InBits,
    decode (.inToken t) =
      .ok (if t.toNat < 256 then .inByte (BitVec.ofNat 8 t.toNat) else .inEnd (BitVec.ofNat 8 (t.toNat - 256)))) ∧
  (∀ t : OutBits,
    decode (.outToken t) =
      .ok (if t.toNat < 2 ^ 32 then .outWord (BitVec.ofNat 32 t.toNat) else .outEnd))

/-- Words written out from the encodings of R50, R51, R53, R54, R55 and R57. -/
def Obligations.WrittenOutTokensDecode : Prop :=
  decode (.inToken 0b011111111#9) = .ok (.inByte 0xFF) ∧ decode (.inToken 0b100000000#9) = .ok (.inEnd 0x00) ∧
    decode (.outToken 0x0BA000100) = .ok (.outWord 0xBA000100) ∧ decode (.outToken 0x100000000) = .ok .outEnd ∧
    decode (.control true false) = .ok .clear ∧ decode (.control false true) = .ok .reset ∧
    decode (.control false false) = .error .noEvent ∧ decode (.triplet 0xAB1234) = .ok (.decodeGroup 0xAB1 0x234)

/-- R52: `Word(w)` is encoded `{1'b0, w}` and `End` is encoded `{1'b1, 32'h00000000}`, and the consumer reads them as OUT_WORD and
OUT_END. -/
def Obligations.OutputTokensAreEncoded : Prop :=
  (∀ w : Word32, (outTokenBits (.word w)).toNat = w.toNat ∧
    decode (.outToken (outTokenBits (.word w))) = .ok (.outWord w)) ∧
  (outTokenBits .endMark).toNat = 2 ^ 32 ∧ decode (.outToken (outTokenBits .endMark)) = .ok .outEnd

/-- R51: every value of the reserved bits of IN_END has the same effect, in `exec` and from the port. -/
def Obligations.ReservedBitsOfEndAreIgnored : Prop :=
  (∀ (r r' : Byte) (s : State), exec (.inEnd r) s = exec (.inEnd r') s) ∧
    (∀ (t t' : InBits) (rest : List InBits) (ts : List Turn) (s : State), t.getLsbD 8 = true → t'.getLsbD 8 = true →
      s.live = true → s.inReady = true →
      step { s with turns := .producer :: ts, inTokens := t :: rest } =
        step { s with turns := .producer :: ts, inTokens := t' :: rest })

/-! ## The transactions (41_stream.md, 70_reset_and_hazards.md) -/

/-- R82: what IN_BYTE does in each phase when it is enabled, and that it faults before the first RESET. In each of them it is one more byte of
the stream by R33, counted in the record `inPos` (log entry 17). -/
def Obligations.ByteIsStoredOrCompletesTheGroup : Prop :=
  ∀ (d : Byte) (s : State),
    (s.live = false → exec (.inByte d) s = .fault .notReset) ∧
    (s.live = true → s.inReady = true →
      (s.phase = 0 → exec (.inByte d) s = .next { s with asm0 := d, phase := 1, inPos := s.inPos + 1 }) ∧
      (s.phase = 1 → exec (.inByte d) s = .next { s with asm1 := d, phase := 2, inPos := s.inPos + 1 }) ∧
      (s.phase = 2 → exec (.inByte d) s = .next { s with
        outq := s.outq ++ [.word (decodeGroup s.asm0 s.asm1 d).1, .word (decodeGroup s.asm0 s.asm1 d).2]
        phase := 0
        inPos := s.inPos + 1 }))

/-- R83: IN_END, when it is enabled, returns `phase` to 0 and enqueues `End` behind what is queued; it faults before the first RESET. The
numbering of the bytes restarts by R33, in the record `inPos` (log entry 17). -/
def Obligations.EndClosesTheStream : Prop :=
  ∀ (r : Byte) (s : State),
    (s.live = false → exec (.inEnd r) s = .fault .notReset) ∧
    (s.live = true → s.inReady = true →
      exec (.inEnd r) s = .next { s with phase := 0, inPos := 0, outq := s.outq ++ [.endMark] })

/-- R84: OUT_WORD takes the word at the head of `outq` and delivers it; it faults before the first RESET. -/
def Obligations.WordIsDeliveredOnce : Prop :=
  ∀ (w : Word32) (s : State),
    (s.live = false → exec (.outWord w) s = .fault .notReset) ∧
    (∀ q, s.live = true → s.outq = .word w :: q →
      exec (.outWord w) s = .next { s with outq := q, taken := s.taken ++ [.word w] })

/-- R85: OUT_END takes the `End` at the head of `outq` and delivers it; it faults before the first RESET. -/
def Obligations.EndIsDeliveredOnce : Prop :=
  ∀ s : State,
    (s.live = false → exec .outEnd s = .fault .notReset) ∧
    (∀ q, s.live = true → s.outq = .endMark :: q →
      exec .outEnd s = .next { s with outq := q, taken := s.taken ++ [.endMark] })

/-- R86: CLEAR returns `phase` to 0 and empties `outq`; in a state that is already clear it changes nothing of the block; it faults before the first RESET. The
numbering of the bytes restarts by R33, in the record `inPos` (log entry 17), which is no part of the block's state (R17). -/
def Obligations.ClearAbortsTheStream : Prop :=
  ∀ s : State,
    (s.live = false → exec .clear s = .fault .notReset) ∧
    (s.live = true → exec .clear s = .next { s with phase := 0, inPos := 0, outq := [] }) ∧
    (s.live = true → s.phase = 0 → s.outq = [] → exec .clear s = .next { s with inPos := 0 })

/-- R113: RESET completes in every state, live or not, with the reset values; after it `in_ready` is high (at every legal depth, R7) and `out_valid`
low. The numbering of the bytes restarts by R33, in the record `inPos` (log entry 17). -/
def Obligations.ResetCompletesInEveryState : Prop :=
  ∀ s : State, ∃ t : State,
    exec .reset s = .next t ∧
      t = { s with live := true, phase := 0, asm0 := 0x00, asm1 := 0x00, outq := [], inPos := 0 } ∧
      (2 ≤ s.outqDepth → t.inReady = true) ∧ t.outValid = false

/-- The values R30 gives for reset, in `State.reset` and at every depth, and the byte number 0 of R33, in the record
`inPos` (log entry 17). That `State.reset` carries depth 2, offers nothing, has no turn placed and nothing taken is the MODEL's choice (log entries 1, 2 and 4). -/
def Obligations.ResetStateHasTheResetValues : Prop :=
  (∀ depth : Nat, 2 ≤ depth →
    (State.resetAt depth).live = true ∧ (State.resetAt depth).phase = 0 ∧ (State.resetAt depth).asm0 = 0x00 ∧
      (State.resetAt depth).asm1 = 0x00 ∧ (State.resetAt depth).outq = [] ∧ (State.resetAt depth).inPos = 0 ∧
      (State.resetAt depth).inReady = true ∧ (State.resetAt depth).outValid = false) ∧
    State.reset = State.resetAt 2

/-- R75 with R46: DECODE_GROUP fires in the step that accepts the third byte: with the block at `phase = 2` and the triplet's first two bytes in `asm0` and
`asm1`, it enqueues both words, sample 0 first, and returns `phase` to 0, which is what IN_BYTE of the third byte does. The rest is the MODEL's
choice, since R75 gives the operation no step of its own and "Exceptions: none": that before the first RESET it faults as its IN_BYTE does, and
that on any other triplet or in any other phase nothing fires (log entry 6); that nothing fires while `in_ready` is low (log entry 3). The byte is
counted in the record `inPos` (R33, log entry 17). -/
def Obligations.GroupFiresWithItsThirdByte : Prop :=
  ∀ (h l : Raw12) (s : State),
    (s.live = false → exec (.decodeGroup h l) s = .fault .notReset) ∧
    (s.live = true → s.inReady = true → s.phase = 2 → s.asm0 = byteA (triplet h l) → s.asm1 = byteB (triplet h l) →
      exec (.decodeGroup h l) s = .next { s with
        outq := s.outq ++ [.word (sample l), .word (sample h)]
        phase := 0
        inPos := s.inPos + 1 } ∧
      exec (.decodeGroup h l) s = exec (.inByte (byteC (triplet h l))) s) ∧
    (s.live = true →
      (s.inReady = false ∨ s.phase ≠ 2 ∨ s.asm0 ≠ byteA (triplet h l) ∨ s.asm1 ≠ byteB (triplet h l)) →
      exec (.decodeGroup h l) s = .next s)

/-- R99: IN_BYTE, IN_END, OUT_WORD, OUT_END and CLEAR fault with NotReset while `live = false`; RESET never raises it and no live block
does; it is the only fault; and a fault is never cleared: a run that faults stays faulted. (DECODE_GROUP before the first RESET:
`GroupFiresWithItsThirdByte`.) -/
def Obligations.NotResetIsTheOnlyFault : Prop :=
  (∀ (i : Instr) (s : State), s.live = false → i ≠ .reset → (∀ h l, i ≠ .decodeGroup h l) →
      exec i s = .fault .notReset) ∧
    (∀ (i : Instr) (s : State) (f : Fault), exec i s = .fault f → f = .notReset ∧ s.live = false ∧ i ≠ .reset) ∧
    (∀ (s : State) (f : Fault), step s = .fault f → ∀ n, runSteps (n + 1) s = .fault f)

/-- R98: no transaction of a live block faults, and none is ever refused: each answers a next state, and so does every step. Where a transaction is
enabled (R87) that is R98's own content. That one which is not enabled also answers a next state, the unchanged one, where R87 has no step, is the
MODEL's inference (log entry 3), as is DECODE_GROUP where it does not fire (log entry 6), and that a step in which nobody can act or nothing is
driven answers one is its choice (log entry 12). -/
def Obligations.LiveTransactionsAlwaysAnswer : Prop :=
  (∀ (i : Instr) (s : State), s.live = true → ∃ t, exec i s = .next t) ∧
    (∀ s : State, s.live = true → ∃ t, step s = .next t) ∧
    (∀ (i : Instr) (s : State) (r : Refusal), exec i s ≠ .refused r)

/-! ## Frames -/

/-- The frame of the input transactions IN_BYTE, IN_END and DECODE_GROUP: `live`, the depth, the host's lists and what was delivered are unchanged;
`outq` only grows at its tail; `asm0` changes only under IN_BYTE at `phase = 0`, `asm1` only under IN_BYTE at `phase = 1`; the record
`inPos` (log entry 17) only counts on, or restarts under IN_END. -/
def Obligations.InputFrame : Prop :=
  ∀ (i : Instr) (s t : State), ((∃ d, i = .inByte d) ∨ (∃ r, i = .inEnd r) ∨ (∃ h l, i = .decodeGroup h l)) →
    exec i s = .next t →
      t.live = s.live ∧ t.outqDepth = s.outqDepth ∧ t.inTokens = s.inTokens ∧ t.turns = s.turns ∧
        t.taken = s.taken ∧ s.outq <+: t.outq ∧
        (t.asm0 ≠ s.asm0 → s.phase = 0 ∧ ∃ d, i = .inByte d ∧ t.asm0 = d) ∧
        (t.asm1 ≠ s.asm1 → s.phase = 1 ∧ ∃ d, i = .inByte d ∧ t.asm1 = d) ∧
        (t.outq ≠ s.outq → (∃ r, i = .inEnd r) ∨ s.phase = 2) ∧
        (t.inPos ≠ s.inPos → t.inPos = s.inPos + 1 ∨ (t.inPos = 0 ∧ ∃ r, i = .inEnd r))

/-- The frame of OUT_WORD and OUT_END: every field but `outq` and `taken` is unchanged, and the two together hold the same tokens in the same
order. -/
def Obligations.OutputFrame : Prop :=
  ∀ (i : Instr) (s t : State), ((∃ w, i = .outWord w) ∨ i = .outEnd) → exec i s = .next t →
    t.live = s.live ∧ t.phase = s.phase ∧ t.asm0 = s.asm0 ∧ t.asm1 = s.asm1 ∧ t.inPos = s.inPos ∧
      t.outqDepth = s.outqDepth ∧ t.inTokens = s.inTokens ∧ t.turns = s.turns ∧ t.taken ++ t.outq = s.taken ++ s.outq

/-- The frame of CLEAR and RESET: what was delivered stays delivered, the depth and the host's lists are unchanged; CLEAR also keeps `live`, `asm0` and
`asm1`. -/
def Obligations.ControlFrame : Prop :=
  ∀ (i : Instr) (s t : State), (i = .clear ∨ i = .reset) → exec i s = .next t →
    t.taken = s.taken ∧ t.outqDepth = s.outqDepth ∧ t.inTokens = s.inTokens ∧ t.turns = s.turns ∧
      (i = .clear → t.live = s.live ∧ t.asm0 = s.asm0 ∧ t.asm1 = s.asm1)

/-- R18: `phase` advances by one, wrapping modulo 3, on every IN_BYTE accepted; it returns to 0 on IN_END accepted, CLEAR and RESET; nothing else
writes it (DECODE_GROUP is part of an IN_BYTE). -/
def Obligations.PhaseIsTheOnlySequencing : Prop :=
  ∀ (i : Instr) (s t : State), exec i s = .next t →
    (∀ d, i = .inByte d → t.phase = if s.inReady then s.phase + 1 else s.phase) ∧
      (∀ r, i = .inEnd r → s.inReady = true → t.phase = 0) ∧ (i = .clear → t.phase = 0) ∧ (i = .reset → t.phase = 0) ∧
      (t.phase ≠ s.phase →
        (∃ d, i = .inByte d) ∨ (∃ r, i = .inEnd r) ∨ i = .clear ∨ i = .reset ∨ (∃ h l, i = .decodeGroup h l))

/-- R27 and R23, over the whole machine: no step writes OUTQ_DEPTH, and no step but RESET writes `live`. -/
def Obligations.StepsNeverWriteTheParameter : Prop :=
  ∀ s t : State, step s = .next t →
    t.outqDepth = s.outqDepth ∧ (t.live ≠ s.live → s.fetch = some .reset) ∧ s.taken <+: t.taken

/-- R43 item 5, with R46, for one transaction that is not CLEAR or RESET: delivered and queued tokens stay as they are, in order, and exactly these
new ones join at the tail: the two words of the group an accepted byte completes, sample 0 first; one `End` with an accepted IN_END; nothing
otherwise. DECODE_GROUP as a transaction of its own adds its two words where it fires (log entry 6). -/
def Obligations.NothingIsReorderedOrLost : Prop :=
  ∀ (i : Instr) (s t : State), i ≠ .clear → i ≠ .reset → exec i s = .next t →
    t.taken ++ t.outq = s.taken ++ s.outq ++
      match i with
      | .inByte d =>
        if s.inReady = true ∧ s.phase = 2 then
          [.word (decodeGroup s.asm0 s.asm1 d).1, .word (decodeGroup s.asm0 s.asm1 d).2]
        else []
      | .inEnd _ => if s.inReady = true then [.endMark] else []
      | .decodeGroup h l =>
        if s.inReady = true ∧ s.phase = 2 ∧ s.asm0 = byteA (triplet h l) ∧ s.asm1 = byteB (triplet h l) then
          [.word (sample l), .word (sample h)]
        else []
      | .outWord _ => []
      | .outEnd => []
      | .clear => []
      | .reset => []

/-! ## Steps and agents (00_scope.md R11, R12; 30_encoding.md R55, R63) -/

/-- A step runs the decoded instruction, producer's turn, where it is the earliest turn that does not wait: the token on offer is decoded and run, the
turn is over, the token leaves the port (R63), and the agents that wait keep their turns (R94, R100). A producer that offers nothing takes no step
(R112), and that its turn is then over is the MODEL's choice (log entry 12). -/
def Obligations.ProducerStepRunsTheOfferedToken : Prop :=
  (∀ (s : State) (ws ts : List Turn) (tok : InBits) (rest : List InBits) (i : Instr),
    s.turns = ws ++ .producer :: ts → (∀ w ∈ ws, s.waits w = true) → s.inTokens = tok :: rest →
    (s.live = false ∨ s.inReady = true) → decode (.inToken tok) = .ok i →
    step s = exec i { s with turns := ws ++ ts, inTokens := rest }) ∧
  (∀ (s : State) (ws ts : List Turn), s.turns = ws ++ .producer :: ts → (∀ w ∈ ws, s.waits w = true) → s.inTokens = [] →
    step s = .next { s with turns := ws ++ ts })

/-- A step runs the decoded instruction, consumer's turn, where it is the earliest turn that does not wait: the block's `out_token` is decoded and run,
and the turn is over. With an empty `outq` a live block's consumer waits (R84), and keeps its turn. Before the first RESET its transfer faults
(R99); that it is one whatever `outq` lists is the MODEL's inference (log entry 5). -/
def Obligations.ConsumerStepRunsTheHeadToken : Prop :=
  (∀ (s : State) (ws ts : List Turn) (tok : OutToken) (q : List OutToken) (i : Instr),
    s.turns = ws ++ .consumer :: ts → (∀ w ∈ ws, s.waits w = true) → s.outq = tok :: q →
    decode (.outToken (outTokenBits tok)) = .ok i → step s = exec i { s with turns := ws ++ ts }) ∧
  (∀ s t : State, s.live = true → s.outq = [] → step s = .next t →
    t.turns.count .consumer = s.turns.count .consumer ∧ t.taken = s.taken) ∧
  (∀ (s : State) (ts : List Turn), s.turns = .consumer :: ts → s.live = false → step s = .fault .notReset)

/-- R55, where it is the earliest turn that does not wait: `rst` high is RESET, with `clear` high or not; `clear` alone is CLEAR; with both low there is
no event. The token on offer stays on offer (R120). That a turn with both lines low is over is the MODEL's choice (log entry 12). -/
def Obligations.ControllerStepRunsItsLines : Prop :=
  ∀ (s : State) (ws ts : List Turn) (c r : Bool), s.turns = ws ++ .controller c r :: ts → (∀ w ∈ ws, s.waits w = true) →
    (r = true → step s = exec .reset { s with turns := ws ++ ts }) ∧
      (r = false → c = true → step s = exec .clear { s with turns := ws ++ ts }) ∧
      (r = false → c = false → step s = .next { s with turns := ws ++ ts })

/-- R94, R100, R112: what is not enabled changes nothing: an input transaction while `in_ready` is low, an output transaction whose token is not at the
head of `outq`, and a step in which every agent that has a turn waits, or none has one. That the model answers the unchanged state for a wait is its
inference (log entry 3). -/
def Obligations.WaitingKeepsTheState : Prop :=
  (∀ (s : State) (d r : Byte), s.live = true → s.inReady = false →
    exec (.inByte d) s = .next s ∧ exec (.inEnd r) s = .next s) ∧
  (∀ (s : State) (w : Word32), s.live = true → s.outq.head? ≠ some (.word w) → exec (.outWord w) s = .next s) ∧
  (∀ s : State, s.live = true → s.outq.head? ≠ some .endMark → exec .outEnd s = .next s) ∧
  (∀ s : State, (∀ u ∈ s.turns, s.waits u = true) → ∀ n, runSteps n s = .next s)

/-- The internal DECODE_GROUP from the ports: the step that transfers a byte at `phase = 2` is the firing of DECODE_GROUP on the packed group
(R75, R82). -/
def Obligations.ThirdByteStepFiresTheGroup : Prop :=
  ∀ (s : State) (ws ts : List Turn) (c : Byte) (rest : List InBits), s.live = true → s.inReady = true → s.phase = 2 →
    s.turns = ws ++ .producer :: ts → (∀ w ∈ ws, s.waits w = true) → s.inTokens = byteToken c :: rest →
    step s = exec (.decodeGroup (unpackS1 (pack s.asm0 s.asm1 c)) (unpackS0 (pack s.asm0 s.asm1 c)))
      { s with turns := ws ++ ts, inTokens := rest }

/-- R103: RESET and then CLEAR come first and cancel every transfer of their cycle, the offered token staying on offer; an output and an input transfer in
the same cycle both happen, with the effect of the output transfer followed by the input transfer; `in_ready` is that of the start of the cycle, so
with it low there only the output transfer happens. That a cycle is this sequence of turns is the model's inference (log entry 13). -/
def Obligations.CycleEventsHavePriorities : Prop :=
  ∀ (s : State) (p : Pins),
    (p.rst = true → step (s.withCycle p) = exec .reset s) ∧
    (p.rst = false → p.clear = true → step (s.withCycle p) = exec .clear s) ∧
    (∀ (o : OutToken) (q : List OutToken) (tok : InBits) (rest : List InBits) (i : Instr),
      p = { rst := false, clear := false, inValid := true, outReady := true } → s.live = true → s.inReady = true →
      s.outq = o :: q → s.inTokens = tok :: rest → decode (.inToken tok) = .ok i →
      ∃ u : State, step (s.withCycle p) = .next { u with turns := .producer :: s.turns } ∧
        u = { s with outq := q, taken := s.taken ++ [o] } ∧
        runSteps 2 (s.withCycle p) = exec i { u with inTokens := rest }) ∧
    (∀ (o : OutToken) (q : List OutToken),
      p = { rst := false, clear := false, inValid := true, outReady := true } → s.live = true → s.inReady = false →
      s.outq = o :: q → step (s.withCycle p) = .next { s with outq := q, taken := s.taken ++ [o] })

/-! ## Invariants and waiting -/

/-- R28 holds right after RESET, at every legal depth. -/
def Obligations.ResetMeetsTheInvariant : Prop :=
  (∀ depth : Nat, 2 ≤ depth → (State.resetAt depth).Inv) ∧ State.reset.Inv

/-- R28 (with `phase` the byte number modulo 3, R34, and the words of R73 in the queue and at the consumer): every step keeps the invariant. -/
def Obligations.EveryStepKeepsTheInvariant : Prop :=
  ∀ s t : State, s.Inv → step s = .next t → t.Inv

/-- R25: no accepted token can overflow `outq`: no transaction takes its length above OUTQ_DEPTH, from any state whose queue fits. -/
def Obligations.QueueNeverOverflows : Prop :=
  ∀ (i : Instr) (s t : State), s.outq.length ≤ s.outqDepth → exec i s = .next t → t.outq.length ≤ t.outqDepth

/-- R100: the block never deadlocks: at every legal depth, from every live state, an output token is on offer or `in_ready` is high. While an agent that
has a turn does not wait, the step uses a turn up: that is so of a transfer and of a CLEAR or RESET, and where the agent drives nothing (a producer
with no token, a controller with both lines low) it is the MODEL's choice (log entry 12). In a stuck state it is the host that
waits or fails to act: the producer alone is due, and waits; or the consumer alone is due, and waits; or nobody is due to act, and an output is
never taken (U13; that this and a token on offer at low `in_ready` are stuck with no turn left is the model's inference, log entry 20). Conversely
each of these is stuck. Such a run has not reached its end and has ended badly (R124); that its steps are answered with the unchanged state is the
model's inference (log entry 3). -/
def Obligations.BlockNeverDeadlocks : Prop :=
  ∀ s : State, s.live = true → 2 ≤ s.outqDepth →
    (s.outValid = true ∨ s.inReady = true) ∧
      (s.turns ≠ [] → ¬ s.Stuck → ∃ t, step s = .next t ∧ t.turns.length + 1 = s.turns.length) ∧
      (s.Stuck ↔
        (s.ProducerWaits ∧ ∀ u ∈ s.turns, u = .producer) ∨ (s.ConsumerWaits ∧ ∀ u ∈ s.turns, u = .consumer) ∨
          (s.turns = [] ∧ s.outq ≠ [])) ∧
      (s.Stuck → ∀ n, EndsBadly (runSteps n s) ∧ ¬ EndsWell (runSteps n s))

/-- R94: while an offered token waits, a step that is not the consumer's and no control event leaves it waiting, its turn still to come, with every queued
token in place. -/
def Obligations.OnlyTheConsumerEndsAWait : Prop :=
  ∀ s t : State, s.ProducerWaits → step s = .next t → s.nextTurn ≠ some .consumer → s.nextTurn.any Turn.isEvent = false →
    t.ProducerWaits ∧ t.inTokens = s.inTokens ∧ t.outq = s.outq ∧ t.taken = s.taken

/-- R94, R61, R123: the wait of an offered token ends with the consumer's takes, and with no second offer; and at every legal depth, once the consumer has
taken what is queued there is room. That the take goes ahead of the waiting turn, and that when it makes room the VERY NEXT step transfers the token,
in both clauses, is the MODEL's inference: its step takes the earliest turn that does not wait (log entry 12). -/
def Obligations.TakingEverythingEndsTheWait : Prop :=
  (∀ (s : State) (ts : List Turn) (o : OutToken) (q : List OutToken) (tok : InBits) (rest : List InBits) (i : Instr),
    s.live = true → s.inReady = false → s.turns = .producer :: .consumer :: ts → s.outq = o :: q →
    s.inTokens = tok :: rest → decode (.inToken tok) = .ok i →
    ∃ u : State, step s = .next u ∧ u = { s with turns := .producer :: ts, outq := q, taken := s.taken ++ [o] } ∧
      (u.inReady = true → step u = exec i { u with turns := ts, inTokens := rest })) ∧
  (∀ (s : State) (ts : List Turn) (tok : InBits) (rest : List InBits) (i : Instr), s.live = true → 2 ≤ s.outqDepth →
    s.turns = List.replicate s.outq.length .consumer ++ .producer :: ts → s.inTokens = tok :: rest →
    decode (.inToken tok) = .ok i →
    ∃ u : State, runSteps s.outq.length s = .next u ∧ u.outq = [] ∧ u.taken = s.taken ++ s.outq ∧ u.inReady = true ∧
      step u = exec i { u with turns := ts, inTokens := rest })

/-- R31, R116: CLEAR and RESET of a live block leave states that differ only in bytes of `asm0` and `asm1` that are rewritten before they are
read; and such bytes make no difference: two states that differ only there take the same steps, and go on differing only there. -/
def Obligations.DeadBytesMakeNoDifference : Prop :=
  (∀ s : State, s.live = true →
    ∃ t u : State, exec .clear s = .next t ∧ exec .reset s = .next u ∧ t.SameUpToDeadBytes u) ∧
  (∀ s t s' : State, s.SameUpToDeadBytes t → step s = .next s' →
    ∃ t' : State, step t = .next t' ∧ s'.SameUpToDeadBytes t')

/-! ## Streams (41_stream.md R89-R97) -/

/-- R89: from a start-of-stream point, whatever the schedule of the agents, and at every depth, while no CLEAR or RESET comes: once a stream's tokens are
accepted exactly F(x) has followed what was delivered and queued before, and the block is at a start-of-stream point again; with `outq` empty the
consumer has received exactly F(x). -/
def Obligations.StreamOutputIsTheStreamFunction : Prop :=
  ∀ (s t : State) (x : List Byte) (rest : List InBits) (n : Nat), s.AtStreamStart →
    s.inTokens = streamTokens x ++ rest → transferRun n s = some t → t.inTokens = rest →
      t.taken ++ t.outq = s.taken ++ s.outq ++ streamOutput x ∧ t.AtStreamStart ∧
        (t.outq = [] → t.taken = s.taken ++ s.outq ++ streamOutput x)

/-- R33, R34, R44: in the middle of a stream: when exactly the bytes `x` have been accepted, `inPos` is their number (R33, log entry 17),
`phase` is that number modulo 3, and exactly the words of the complete groups have entered `outq`, whether or not they were taken. -/
def Obligations.PhaseCountsTheBytes : Prop :=
  ∀ (s t : State) (x : List Byte) (rest : List InBits) (n : Nat), s.AtStreamStart →
    s.inTokens = x.map byteToken ++ rest → transferRun n s = some t → t.inTokens = rest →
      t.inPos = x.length ∧ (t.phase : Nat) = x.length % 3 ∧ t.taken ++ t.outq = s.taken ++ s.outq ++ streamWords x

/-- R96: at every moment `t` of a stream before its CLEAR or RESET (no token of `rest`, which follows the stream, accepted) the consumer holds a prefix of the
stream's tokens, without `End` unless it has taken all of them; the number of words in the prefix is even, unless the consumer has taken sample 0 of a
group and not yet its sample 1. The CLEAR or RESET then adds nothing, and leaves nothing of the stream: no token in `outq` and no byte of a
partial group. -/
def Obligations.CutStreamLeavesAPrefix : Prop :=
  ∀ (s t : State) (x : List Byte) (rest : List InBits) (n : Nat), s.AtStreamStart → s.inTokens = streamTokens x ++ rest →
    transferRun n s = some t → rest.length ≤ t.inTokens.length →
      t.taken <+: s.taken ++ s.outq ++ streamOutput x ∧
      (t.taken ≠ s.taken ++ s.outq ++ streamOutput x → t.taken <+: s.taken ++ s.outq ++ streamWords x) ∧
      (∀ p : List OutToken, t.taken = s.taken ++ s.outq ++ p → p <+: streamWords x → p.length % 2 = 1 →
        ∃ (k : Nat) (a b c : Byte) (y : List Byte), x.drop (3 * k) = a :: b :: c :: y ∧
          p = streamWords (x.take (3 * k)) ++ [.word (decodeGroup a b c).1] ∧
          t.outq.head? = some (.word (decodeGroup a b c).2)) ∧
      (∀ (u : State) (i : Instr), i = .clear ∨ i = .reset → exec i t = .next u →
        u.taken = t.taken ∧ u.outq = [] ∧ u.AtStreamStart)

/-- R91 with R92: two runs of one stream, each at its own depth and under its own schedule of the agents, with no CLEAR or RESET, that both come to
their end deliver the same tokens. That a run at its end has had every offered token accepted is the MODEL's choice (log entry 19). -/
def Obligations.OutputIsScheduleIndependent : Prop :=
  ∀ (s s' t t' : State) (x : List Byte) (n n' : Nat), s.AtStreamStart → s'.AtStreamStart →
    s.inTokens = streamTokens x → s'.inTokens = streamTokens x → s.taken = s'.taken → s.outq = s'.outq →
    transferRun n s = some t → transferRun n' s' = some t' → t.Ended → t'.Ended → t.taken = t'.taken

/-- R93: the output of the stream `y` is F(y) whatever came before. First, an ended stream `x` (any bytes, any leftover), whose output precedes it. Second,
a stream cut off by a CLEAR or RESET in any live state `s`, at any byte of any stream and with any output untaken: from the state `u` after that
step, with the tokens of `y` on offer under any schedule (the producer withdraws those of the cut stream, R120), exactly F(y) follows what was
delivered before the cut. -/
def Obligations.StreamsAreIndependent : Prop :=
  (∀ (s t : State) (x y : List Byte) (rest : List InBits) (n : Nat), s.AtStreamStart →
    s.inTokens = streamTokens x ++ (streamTokens y ++ rest) → transferRun n s = some t → t.inTokens = rest → t.outq = [] →
      t.taken = s.taken ++ s.outq ++ streamOutput x ++ streamOutput y) ∧
  (∀ (s u t : State) (c r : Bool) (y : List Byte) (rest : List InBits) (ts : List Turn) (n : Nat), s.live = true →
    s.nextTurn = some (.controller c r) → (c || r) = true → step s = .next u →
    transferRun n { u with inTokens := streamTokens y ++ rest, turns := ts } = some t → t.inTokens = rest →
      t.taken ++ t.outq = s.taken ++ streamOutput y ∧ (t.outq = [] → t.taken = s.taken ++ streamOutput y))

/-- R126, with R123's fairness as a premise on the turns (log entry 14): under the launch premises, at every legal depth, the consumer receives F(x)
behind what was delivered and queued before, within as many steps as the launch has turns; whatever the order of those turns, and
whatever follows (a CLEAR or RESET included). With exactly the turns the stream needs the run then ends well (R124). It leans on the model's
turns: that a waiting agent keeps its turn, and one that drives nothing uses its turn up (log entries 2 and 12). -/
def Obligations.FairlyScheduledStreamCompletes : Prop :=
  ∀ (s : State) (x : List Byte) (rest : List InBits) (a b : List Turn), s.Launched x rest a b → 2 ≤ s.outqDepth →
    (∃ t : State, runSteps a.length s = .next t ∧ s.taken ++ s.outq ++ streamOutput x <+: t.taken) ∧
    (rest = [] → b = [] → a.count .producer = x.length + 1 →
      a.count .consumer = s.outq.length + (streamOutput x).length →
      EndsWell (runSteps a.length s) ∧
        ∃ t : State, runSteps a.length s = .next t ∧ t.taken = s.taken ++ s.outq ++ streamOutput x)

/-- R90: F(x) holds `2 * floor(N / 3)` words, and its file has `8 * floor(N / 3)` bytes. -/
def Obligations.OutputLengthLaw : Prop :=
  ∀ x : List Byte,
    (streamWords x).length = 2 * (x.length / 3) ∧ (∀ tok ∈ streamWords x, ∃ w, tok = .word w) ∧
      (fileBytes (streamOutput x)).length = 8 * (x.length / 3)

/-- R97: what the block does with the bytes `x` and then `y` when no IN_END comes between them: it decodes one stream, under every schedule and at every depth. With
no leftover bytes in `x`, the groups of `y` are as they would be on their own; 1 or 2 leftover bytes of `x` form a group with the first bytes of
`y`, and every later group is shifted by that much. -/
def Obligations.UnseparatedStreamsJoin : Prop :=
  ∀ (s t : State) (x y : List Byte) (rest : List InBits) (n : Nat), s.AtStreamStart → x.length % 3 = 0 →
    transferRun n s = some t → t.inTokens = rest →
    (s.inTokens = (x ++ y).map byteToken ++ rest →
      t.taken ++ t.outq = s.taken ++ s.outq ++ (streamWords x ++ streamWords y)) ∧
    (∀ p a b : Byte, s.inTokens = ((x ++ [p]) ++ (a :: b :: y)).map byteToken ++ rest →
      t.taken ++ t.outq = s.taken ++ s.outq ++
        (streamWords x ++ [.word (decodeGroup p a b).1, .word (decodeGroup p a b).2] ++ streamWords y)) ∧
    (∀ p q a : Byte, s.inTokens = ((x ++ [p, q]) ++ (a :: y)).map byteToken ++ rest →
      t.taken ++ t.outq = s.taken ++ s.outq ++
        (streamWords x ++ [.word (decodeGroup p q a).1, .word (decodeGroup p q a).2] ++ streamWords y))

/-- R37: word `j` of an output file is its bytes `4j` to `4j+3`, least significant first. -/
def Obligations.WordsAreSerialisedLittleEndian : Prop :=
  ∀ (ws : List Word32) (j : Nat) (w : Word32), ws[j]? = some w →
    ∃ b0 b1 b2 b3 : Byte, (fileBytes (ws.map .word))[4 * j]? = some b0 ∧ (fileBytes (ws.map .word))[4 * j + 1]? = some b1 ∧
      (fileBytes (ws.map .word))[4 * j + 2]? = some b2 ∧ (fileBytes (ws.map .word))[4 * j + 3]? = some b3 ∧
      w.toNat = b0.toNat + b1.toNat * 2 ^ 8 + b2.toNat * 2 ^ 16 + b3.toNat * 2 ^ 24
end

