-- ==== Sys2Proof/Laws/State.lean ====
section
/-! SUPPORT. Laws/State.lean: what each named update of the state does to each field, so that no proof unfolds one. -/

namespace Sys2Proof.Machine

variable (s : State)

@[simp] theorem State.enq_live (t : OutToken) : (s.enq t).live = s.live := rfl
@[simp] theorem State.enq_phase (t : OutToken) : (s.enq t).phase = s.phase := rfl
@[simp] theorem State.enq_asm0 (t : OutToken) : (s.enq t).asm0 = s.asm0 := rfl
@[simp] theorem State.enq_asm1 (t : OutToken) : (s.enq t).asm1 = s.asm1 := rfl
@[simp] theorem State.enq_outq (t : OutToken) : (s.enq t).outq = s.outq ++ [t] := rfl
@[simp] theorem State.enq_inPos (t : OutToken) : (s.enq t).inPos = s.inPos := rfl
@[simp] theorem State.enq_outqDepth (t : OutToken) : (s.enq t).outqDepth = s.outqDepth := rfl
@[simp] theorem State.enq_inTokens (t : OutToken) : (s.enq t).inTokens = s.inTokens := rfl
@[simp] theorem State.enq_turns (t : OutToken) : (s.enq t).turns = s.turns := rfl
@[simp] theorem State.enq_taken (t : OutToken) : (s.enq t).taken = s.taken := rfl

@[simp] theorem State.deliver_live (t : OutToken) : (s.deliver t).live = s.live := rfl
@[simp] theorem State.deliver_phase (t : OutToken) : (s.deliver t).phase = s.phase := rfl
@[simp] theorem State.deliver_asm0 (t : OutToken) : (s.deliver t).asm0 = s.asm0 := rfl
@[simp] theorem State.deliver_asm1 (t : OutToken) : (s.deliver t).asm1 = s.asm1 := rfl
@[simp] theorem State.deliver_outq (t : OutToken) : (s.deliver t).outq = s.outq.tail := rfl
@[simp] theorem State.deliver_inPos (t : OutToken) : (s.deliver t).inPos = s.inPos := rfl
@[simp] theorem State.deliver_outqDepth (t : OutToken) : (s.deliver t).outqDepth = s.outqDepth := rfl
@[simp] theorem State.deliver_inTokens (t : OutToken) : (s.deliver t).inTokens = s.inTokens := rfl
@[simp] theorem State.deliver_turns (t : OutToken) : (s.deliver t).turns = s.turns := rfl
@[simp] theorem State.deliver_taken (t : OutToken) : (s.deliver t).taken = s.taken ++ [t] := rfl

@[simp] theorem State.setPhase_live (n : Fin 3) : (s.setPhase n).live = s.live := rfl
@[simp] theorem State.setPhase_phase (n : Fin 3) : (s.setPhase n).phase = n := rfl
@[simp] theorem State.setPhase_asm0 (n : Fin 3) : (s.setPhase n).asm0 = s.asm0 := rfl
@[simp] theorem State.setPhase_asm1 (n : Fin 3) : (s.setPhase n).asm1 = s.asm1 := rfl
@[simp] theorem State.setPhase_outq (n : Fin 3) : (s.setPhase n).outq = s.outq := rfl
@[simp] theorem State.setPhase_inPos (n : Fin 3) : (s.setPhase n).inPos = s.inPos := rfl
@[simp] theorem State.setPhase_outqDepth (n : Fin 3) : (s.setPhase n).outqDepth = s.outqDepth := rfl
@[simp] theorem State.setPhase_inTokens (n : Fin 3) : (s.setPhase n).inTokens = s.inTokens := rfl
@[simp] theorem State.setPhase_turns (n : Fin 3) : (s.setPhase n).turns = s.turns := rfl
@[simp] theorem State.setPhase_taken (n : Fin 3) : (s.setPhase n).taken = s.taken := rfl

@[simp] theorem State.countByte_live : s.countByte.live = s.live := rfl
@[simp] theorem State.countByte_phase : s.countByte.phase = s.phase := rfl
@[simp] theorem State.countByte_asm0 : s.countByte.asm0 = s.asm0 := rfl
@[simp] theorem State.countByte_asm1 : s.countByte.asm1 = s.asm1 := rfl
@[simp] theorem State.countByte_outq : s.countByte.outq = s.outq := rfl
@[simp] theorem State.countByte_inPos : s.countByte.inPos = s.inPos + 1 := rfl
@[simp] theorem State.countByte_outqDepth : s.countByte.outqDepth = s.outqDepth := rfl
@[simp] theorem State.countByte_inTokens : s.countByte.inTokens = s.inTokens := rfl
@[simp] theorem State.countByte_turns : s.countByte.turns = s.turns := rfl
@[simp] theorem State.countByte_taken : s.countByte.taken = s.taken := rfl

@[simp] theorem State.startStream_live : s.startStream.live = s.live := rfl
@[simp] theorem State.startStream_phase : s.startStream.phase = 0 := rfl
@[simp] theorem State.startStream_asm0 : s.startStream.asm0 = s.asm0 := rfl
@[simp] theorem State.startStream_asm1 : s.startStream.asm1 = s.asm1 := rfl
@[simp] theorem State.startStream_outq : s.startStream.outq = s.outq := rfl
@[simp] theorem State.startStream_inPos : s.startStream.inPos = 0 := rfl
@[simp] theorem State.startStream_outqDepth : s.startStream.outqDepth = s.outqDepth := rfl
@[simp] theorem State.startStream_inTokens : s.startStream.inTokens = s.inTokens := rfl
@[simp] theorem State.startStream_turns : s.startStream.turns = s.turns := rfl
@[simp] theorem State.startStream_taken : s.startStream.taken = s.taken := rfl

@[simp] theorem State.setAsm0_live (d : Byte) : (s.setAsm0 d).live = s.live := rfl
@[simp] theorem State.setAsm0_phase (d : Byte) : (s.setAsm0 d).phase = s.phase := rfl
@[simp] theorem State.setAsm0_asm0 (d : Byte) : (s.setAsm0 d).asm0 = d := rfl
@[simp] theorem State.setAsm0_asm1 (d : Byte) : (s.setAsm0 d).asm1 = s.asm1 := rfl
@[simp] theorem State.setAsm0_outq (d : Byte) : (s.setAsm0 d).outq = s.outq := rfl
@[simp] theorem State.setAsm0_inPos (d : Byte) : (s.setAsm0 d).inPos = s.inPos := rfl
@[simp] theorem State.setAsm0_outqDepth (d : Byte) : (s.setAsm0 d).outqDepth = s.outqDepth := rfl
@[simp] theorem State.setAsm0_inTokens (d : Byte) : (s.setAsm0 d).inTokens = s.inTokens := rfl
@[simp] theorem State.setAsm0_turns (d : Byte) : (s.setAsm0 d).turns = s.turns := rfl
@[simp] theorem State.setAsm0_taken (d : Byte) : (s.setAsm0 d).taken = s.taken := rfl

@[simp] theorem State.setAsm1_live (d : Byte) : (s.setAsm1 d).live = s.live := rfl
@[simp] theorem State.setAsm1_phase (d : Byte) : (s.setAsm1 d).phase = s.phase := rfl
@[simp] theorem State.setAsm1_asm0 (d : Byte) : (s.setAsm1 d).asm0 = s.asm0 := rfl
@[simp] theorem State.setAsm1_asm1 (d : Byte) : (s.setAsm1 d).asm1 = d := rfl
@[simp] theorem State.setAsm1_outq (d : Byte) : (s.setAsm1 d).outq = s.outq := rfl
@[simp] theorem State.setAsm1_inPos (d : Byte) : (s.setAsm1 d).inPos = s.inPos := rfl
@[simp] theorem State.setAsm1_outqDepth (d : Byte) : (s.setAsm1 d).outqDepth = s.outqDepth := rfl
@[simp] theorem State.setAsm1_inTokens (d : Byte) : (s.setAsm1 d).inTokens = s.inTokens := rfl
@[simp] theorem State.setAsm1_turns (d : Byte) : (s.setAsm1 d).turns = s.turns := rfl
@[simp] theorem State.setAsm1_taken (d : Byte) : (s.setAsm1 d).taken = s.taken := rfl

@[simp] theorem State.clearQueue_live : (s.clearQueue).live = s.live := rfl
@[simp] theorem State.clearQueue_phase : (s.clearQueue).phase = s.phase := rfl
@[simp] theorem State.clearQueue_asm0 : (s.clearQueue).asm0 = s.asm0 := rfl
@[simp] theorem State.clearQueue_asm1 : (s.clearQueue).asm1 = s.asm1 := rfl
@[simp] theorem State.clearQueue_outq : (s.clearQueue).outq = [] := rfl
@[simp] theorem State.clearQueue_inPos : (s.clearQueue).inPos = s.inPos := rfl
@[simp] theorem State.clearQueue_outqDepth : (s.clearQueue).outqDepth = s.outqDepth := rfl
@[simp] theorem State.clearQueue_inTokens : (s.clearQueue).inTokens = s.inTokens := rfl
@[simp] theorem State.clearQueue_turns : (s.clearQueue).turns = s.turns := rfl
@[simp] theorem State.clearQueue_taken : (s.clearQueue).taken = s.taken := rfl

@[simp] theorem State.goLive_live : (s.goLive).live = true := rfl
@[simp] theorem State.goLive_phase : (s.goLive).phase = s.phase := rfl
@[simp] theorem State.goLive_asm0 : (s.goLive).asm0 = s.asm0 := rfl
@[simp] theorem State.goLive_asm1 : (s.goLive).asm1 = s.asm1 := rfl
@[simp] theorem State.goLive_outq : (s.goLive).outq = s.outq := rfl
@[simp] theorem State.goLive_inPos : (s.goLive).inPos = s.inPos := rfl
@[simp] theorem State.goLive_outqDepth : (s.goLive).outqDepth = s.outqDepth := rfl
@[simp] theorem State.goLive_inTokens : (s.goLive).inTokens = s.inTokens := rfl
@[simp] theorem State.goLive_turns : (s.goLive).turns = s.turns := rfl
@[simp] theorem State.goLive_taken : (s.goLive).taken = s.taken := rfl

/-! completeGroup (R46, R75) -/

@[simp] theorem State.completeGroup_live (p : Packed24) : (s.completeGroup p).live = s.live := rfl
@[simp] theorem State.completeGroup_phase (p : Packed24) : (s.completeGroup p).phase = 0 := rfl
@[simp] theorem State.completeGroup_asm0 (p : Packed24) : (s.completeGroup p).asm0 = s.asm0 := rfl
@[simp] theorem State.completeGroup_asm1 (p : Packed24) : (s.completeGroup p).asm1 = s.asm1 := rfl
@[simp] theorem State.completeGroup_inPos (p : Packed24) : (s.completeGroup p).inPos = s.inPos + 1 := rfl
@[simp] theorem State.completeGroup_outqDepth (p : Packed24) : (s.completeGroup p).outqDepth = s.outqDepth := rfl
@[simp] theorem State.completeGroup_inTokens (p : Packed24) : (s.completeGroup p).inTokens = s.inTokens := rfl
@[simp] theorem State.completeGroup_turns (p : Packed24) : (s.completeGroup p).turns = s.turns := rfl
@[simp] theorem State.completeGroup_taken (p : Packed24) : (s.completeGroup p).taken = s.taken := rfl
@[simp] theorem State.completeGroup_outq (p : Packed24) :
    (s.completeGroup p).outq = s.outq ++ [.word (groupWords p).1, .word (groupWords p).2] := by
  simp [State.completeGroup]

/-! putEnd (R83) and putByte (R82): the fields they leave alone -/

@[simp] theorem State.putEnd_live : s.putEnd.live = s.live := rfl
@[simp] theorem State.putEnd_phase : s.putEnd.phase = 0 := rfl
@[simp] theorem State.putEnd_asm0 : s.putEnd.asm0 = s.asm0 := rfl
@[simp] theorem State.putEnd_asm1 : s.putEnd.asm1 = s.asm1 := rfl
@[simp] theorem State.putEnd_outq : s.putEnd.outq = s.outq ++ [.endMark] := rfl
@[simp] theorem State.putEnd_inPos : s.putEnd.inPos = 0 := rfl
@[simp] theorem State.putEnd_outqDepth : s.putEnd.outqDepth = s.outqDepth := rfl
@[simp] theorem State.putEnd_inTokens : s.putEnd.inTokens = s.inTokens := rfl
@[simp] theorem State.putEnd_turns : s.putEnd.turns = s.turns := rfl
@[simp] theorem State.putEnd_taken : s.putEnd.taken = s.taken := rfl

@[simp] theorem State.putByte_live (d : Byte) : (s.putByte d).live = s.live := by
  unfold State.putByte; split; exact rfl; split <;> rfl
@[simp] theorem State.putByte_inPos (d : Byte) : (s.putByte d).inPos = s.inPos + 1 := by
  unfold State.putByte; split; exact rfl; split <;> rfl
@[simp] theorem State.putByte_outqDepth (d : Byte) : (s.putByte d).outqDepth = s.outqDepth := by
  unfold State.putByte; split; exact rfl; split <;> rfl
@[simp] theorem State.putByte_inTokens (d : Byte) : (s.putByte d).inTokens = s.inTokens := by
  unfold State.putByte; split; exact rfl; split <;> rfl
@[simp] theorem State.putByte_turns (d : Byte) : (s.putByte d).turns = s.turns := by
  unfold State.putByte; split; exact rfl; split <;> rfl
@[simp] theorem State.putByte_taken (d : Byte) : (s.putByte d).taken = s.taken := by
  unfold State.putByte; split; exact rfl; split <;> rfl

theorem State.putByte_first (d : Byte) (h : s.phase = 0) : s.putByte d = ((s.setAsm0 d).setPhase 1).countByte :=
  if_pos h

theorem State.putByte_second (d : Byte) (h : s.phase = 1) : s.putByte d = ((s.setAsm1 d).setPhase 2).countByte := by
  simp [State.putByte, h]

theorem State.putByte_third (d : Byte) (h : s.phase = 2) :
    s.putByte d = s.completeGroup (pack s.asm0 s.asm1 d) := by
  simp [State.putByte, h]

/-! advance: the host's side moves on, the block's does not -/

@[simp] theorem State.advance_live : s.advance.live = s.live := rfl
@[simp] theorem State.advance_phase : s.advance.phase = s.phase := rfl
@[simp] theorem State.advance_asm0 : s.advance.asm0 = s.asm0 := rfl
@[simp] theorem State.advance_asm1 : s.advance.asm1 = s.asm1 := rfl
@[simp] theorem State.advance_outq : s.advance.outq = s.outq := rfl
@[simp] theorem State.advance_inPos : s.advance.inPos = s.inPos := rfl
@[simp] theorem State.advance_outqDepth : s.advance.outqDepth = s.outqDepth := rfl
@[simp] theorem State.advance_taken : s.advance.taken = s.taken := rfl
@[simp] theorem State.advance_turns : s.advance.turns = s.turns.eraseP fun u => !s.waits u := rfl
@[simp] theorem State.advance_inTokens :
    s.advance.inTokens = if s.nextTurn = some .producer then s.inTokens.tail else s.inTokens := rfl
@[simp] theorem State.advance_inReady : s.advance.inReady = s.inReady := rfl
@[simp] theorem State.advance_outData : s.advance.outData = s.outData := rfl

/-! the reset state, at every depth -/

@[simp] theorem State.resetAt_live (depth : Nat) : (State.resetAt depth).live = true := rfl
@[simp] theorem State.resetAt_phase (depth : Nat) : (State.resetAt depth).phase = 0 := rfl
@[simp] theorem State.resetAt_asm0 (depth : Nat) : (State.resetAt depth).asm0 = 0 := rfl
@[simp] theorem State.resetAt_asm1 (depth : Nat) : (State.resetAt depth).asm1 = 0 := rfl
@[simp] theorem State.resetAt_outq (depth : Nat) : (State.resetAt depth).outq = [] := rfl
@[simp] theorem State.resetAt_inPos (depth : Nat) : (State.resetAt depth).inPos = 0 := rfl
@[simp] theorem State.resetAt_outqDepth (depth : Nat) : (State.resetAt depth).outqDepth = depth := rfl
@[simp] theorem State.resetAt_inTokens (depth : Nat) : (State.resetAt depth).inTokens = [] := rfl
@[simp] theorem State.resetAt_turns (depth : Nat) : (State.resetAt depth).turns = [] := rfl
@[simp] theorem State.resetAt_taken (depth : Nat) : (State.resetAt depth).taken = [] := rfl

end Sys2Proof.Machine
end

