-- ==== Sys2Proof/Laws/Ops.lean ====
section
/-! SUPPORT. Laws/Ops.lean: everything each shared operation can do, said once. -/

namespace Sys2Proof.Machine

variable {s t : State}

theorem State.inReady_iff : s.inReady = true ↔ s.outq.length + 2 ≤ s.outqDepth :=
  decide_eq_true_iff

/-- `in_ready` reads the queue's length and the depth alone (R25). -/
@[simp] theorem State.inReady_mk (live : Bool) (phase : Fin 3) (asm0 asm1 : Byte) (outq : List OutToken)
    (inPos depth : Nat) (inTokens : List InBits) (turns : List Turn) (taken : List OutToken) :
    (State.mk live phase asm0 asm1 outq inPos depth inTokens turns taken).inReady = decide (outq.length + 2 ≤ depth) := rfl

theorem State.outValid_iff : s.outValid = true ↔ s.outq ≠ [] := by
  simp [State.outValid, List.length_pos_iff]

/-- A guarded step answers a next state exactly when the block is live and the guarded part answers it. -/
theorem State.whenLive_next {k : StepOutcome} :
    s.whenLive k = .next t ↔ s.live = true ∧ k = .next t := by
  cases h : s.live <;> simp [State.whenLive, h]

theorem State.whenLive_of_live {k : StepOutcome} (h : s.live = true) : s.whenLive k = k := if_pos h

theorem State.whenLive_of_not_live {k : StepOutcome} (h : s.live = false) :
    s.whenLive k = .fault .notReset := by simp [State.whenLive, h]

/-- An input transfer: it happens, or the token waits. -/
theorem State.acceptInput_next {f : State → State} :
    s.acceptInput f = .next t ↔
      s.live = true ∧ ((s.inReady = true ∧ t = f s) ∨ (s.inReady = false ∧ t = s)) := by
  unfold State.acceptInput
  rw [State.whenLive_next]
  cases s.inReady <;> simp <;> exact fun _ => eq_comm

/-- An output transfer: the head is delivered, or the consumer waits. -/
theorem State.giveOutput_next {tok : OutToken} :
    s.giveOutput tok = .next t ↔
      s.live = true ∧ ((s.outData = some tok ∧ t = s.deliver tok) ∨ (s.outData ≠ some tok ∧ t = s)) := by
  unfold State.giveOutput
  rw [State.whenLive_next]
  by_cases h : s.outData = some tok <;> simp [h] <;> exact fun _ => eq_comm

theorem State.outData_eq_some {tok : OutToken} :
    s.outData = some tok ↔ ∃ q, s.outq = tok :: q := by
  simp only [State.outData]
  cases s.outq <;> simp

/-- Neither handshake refuses. -/
theorem State.acceptInput_not_refused {f : State → State} {r : Refusal} : s.acceptInput f ≠ .refused r := by
  unfold State.acceptInput State.whenLive
  cases s.live <;> cases s.inReady <;> simp

theorem State.giveOutput_not_refused {tok : OutToken} {r : Refusal} : s.giveOutput tok ≠ .refused r := by
  unfold State.giveOutput State.whenLive
  cases s.live <;> by_cases h : s.outData = some tok <;> simp [h]

end Sys2Proof.Machine
end

