-- ==== Sys2Proof/Laws/PerInstr.lean ====
section
/-! SUPPORT. Laws/PerInstr.lean: statements made for every instruction, one lemma per constructor.
The family `TableRow`: the word of an instruction has the width of its row in spec/opcode_table.json and meets the row's mask and
match. -/

namespace Sys2Proof.Laws.TableRow

/-- The word fits its row's width, and its bits under the row's mask are the row's match. -/
def Statement (i : Instr) : Prop :=
  tableWord i < 2 ^ tableWidth i ∧ tableWord i &&& tableMask i = tableMatch i

theorem inByte (d : Byte) : Statement (.inByte d) := by
  revert d; unfold Statement; decide

theorem inEnd (r : Byte) : Statement (.inEnd r) := by
  revert r; unfold Statement; decide

theorem outWord (w : Word32) : Statement (.outWord w) := by
  have h : w.toNat < 2 ^ 32 := w.isLt
  have e : tableWord (.outWord w) = w.toNat := by
    have : (0#1 ++ w : BitVec (1 + 32)).toNat = w.toNat := by
      rw [BitVec.toNat_append]; exact Nat.zero_or _
    exact this
  refine ⟨?_, ?_⟩
  · rw [e]; simp only [tableWidth]; omega
  · rw [e]
    have m : tableMask (.outWord w) = 2 ^ 32 := rfl
    rw [m]
    apply Nat.eq_of_testBit_eq
    intro i
    rw [Nat.testBit_and, Nat.testBit_two_pow]
    by_cases hi : 32 = i
    · subst hi; simp [tableMatch, Nat.testBit_lt_two_pow h]
    · simp [tableMatch, hi]

theorem outEnd : Statement .outEnd := by unfold Statement; decide

theorem clear : Statement .clear := by unfold Statement; decide

theorem reset : Statement .reset := by unfold Statement; decide

theorem decodeGroup (h l : Raw12) : Statement (.decodeGroup h l) := by
  refine ⟨?_, by simp [tableMask, tableMatch]⟩
  simp only [tableWord, encode, tableWidth]
  exact (h ++ l).isLt

end Sys2Proof.Laws.TableRow
end

