-- ==== Sys2Proof/Laws/Step.lean ====
section
/-! SUPPORT. Laws/Step.lean: what one step can do, and what the fetch reads for each agent. -/

namespace Sys2Proof.Machine

variable {s t : State}

/-- A step that answers a next state either had no transaction, or ran the one fetched. -/
theorem step_cases (h : step s = .next t) :
    (s.fetch = none ∧ t = s.advance) ∨ ∃ i, s.fetch = some i ∧ exec i s.advance = .next t := by
  unfold step at h
  cases hf : s.fetch with
  | none => rw [hf] at h; exact .inl ⟨rfl, by simpa using h.symm⟩
  | some i => rw [hf] at h; exact .inr ⟨i, rfl, h⟩

/-- The turn of the next step, from the list of turns: those before it wait, and it does not. -/
theorem nextTurn_eq_some {ws ts : List Turn} {u : Turn} (h : s.turns = ws ++ u :: ts) (hw : ∀ w ∈ ws, s.waits w = true)
    (hu : s.waits u = false) : s.nextTurn = some u := by
  have hn : ws.find? (fun w => !s.waits w) = none := List.find?_eq_none.2 fun w hm => by simp [hw w hm]
  simp [State.nextTurn, h, List.find?_append, hn, hu]

/-- Taking that turn leaves the others in place. -/
theorem advance_turns_eq {ws ts : List Turn} {u : Turn} (h : s.turns = ws ++ u :: ts) (hw : ∀ w ∈ ws, s.waits w = true)
    (hu : s.waits u = false) : s.advance.turns = ws ++ ts := by
  have hn : ∀ w ∈ ws, ¬(!s.waits w) = true := fun w hm => by simp [hw w hm]
  rw [State.advance_turns, h, List.eraseP_append_right _ hn, List.eraseP_cons_of_pos (by simp [hu])]

/-- The host's side after a step, from the list of turns. -/
theorem advance_eq {ws ts : List Turn} {u : Turn} (h : s.turns = ws ++ u :: ts) (hw : ∀ w ∈ ws, s.waits w = true)
    (hu : s.waits u = false) :
    s.advance = { s with
      turns := ws ++ ts, inTokens := if u = .producer then s.inTokens.tail else s.inTokens } := by
  have ht := advance_turns_eq h hw hu
  rw [State.advance_turns] at ht
  simp [State.advance, nextTurn_eq_some h hw hu, ht]

/-- There is no turn to take exactly when every agent that has one waits. -/
theorem nextTurn_eq_none : s.nextTurn = none ↔ ∀ w ∈ s.turns, s.waits w = true := by
  simp [State.nextTurn, List.find?_eq_none]

/-- Either every agent that has a turn waits, or one turn is the next and the others before it wait. -/
theorem nextTurn_cases (s : State) :
    (∀ w ∈ s.turns, s.waits w = true) ∨
      ∃ ws u ts, s.turns = ws ++ u :: ts ∧ (∀ w ∈ ws, s.waits w = true) ∧ s.waits u = false ∧ s.nextTurn = some u := by
  cases h : s.nextTurn with
  | none => exact .inl (nextTurn_eq_none.1 h)
  | some u =>
    obtain ⟨hu, ws, ts, ht, hw⟩ := List.find?_eq_some_iff_append.1 h
    exact .inr ⟨ws, u, ts, ht, fun w hm => by simpa using hw w hm, by simpa using hu, rfl⟩

/-- Where every agent that has a turn waits, a step changes nothing (R100, R112). -/
theorem step_of_all_wait (h : ∀ w ∈ s.turns, s.waits w = true) : step s = .next s := by
  have hn := nextTurn_eq_none.2 h
  have he : s.advance = s := by
    have ht : s.turns.eraseP (fun u => !s.waits u) = s.turns :=
      List.eraseP_of_forall_not fun w hm => by simp [h w hm]
    simp only [State.advance, hn, ht]
    rfl
  simp [step, State.fetch, hn, he]

theorem fetch_producer {tok : InBits} {rest : List InBits} (h : s.nextTurn = some .producer)
    (ht : s.inTokens = tok :: rest) : s.fetch = some (decodeIn tok) := by
  simp [State.fetch, h, ht, fetchWire, decode]

theorem fetch_producer_silent (h : s.nextTurn = some .producer) (ht : s.inTokens = []) : s.fetch = none := by
  simp [State.fetch, h, ht]

theorem decodeOut_word (w : Word32) : decodeOut (outTokenBits (.word w)) = .outWord w := by
  have bit (i : Nat) : (outTokenBits (.word w)).getLsbD i = if i < 32 then w.getLsbD i else (0#1).getLsbD (i - 32) :=
    BitVec.getLsbD_append
  have kind : (outTokenBits (.word w)).getLsbD 32 = false := by rw [bit]; rfl
  have low : (outTokenBits (.word w)).extractLsb' 0 32 = w := by
    apply BitVec.eq_of_getLsbD_eq
    intro i hi
    rw [BitVec.getLsbD_extractLsb', Nat.zero_add, bit]
    simp [hi]
  rw [decodeOut, kind, low]; rfl

theorem decodeOut_end : decodeOut (outTokenBits .endMark) = .outEnd := by decide

/-- The transaction with which the consumer takes a token. -/
def takeInstr : OutToken → Instr
  | .word w => .outWord w
  | .endMark => .outEnd

theorem exec_takeInstr (tok : OutToken) (s : State) : exec (takeInstr tok) s = s.giveOutput tok := by
  cases tok <;> rfl

theorem fetch_consumer {tok : OutToken} {q : List OutToken} (h : s.nextTurn = some .consumer) (hq : s.outq = tok :: q) :
    s.fetch = some (takeInstr tok) := by
  cases tok <;> simp [State.fetch, h, State.outData, hq, fetchWire, decode, takeInstr, decodeOut_word, decodeOut_end]

theorem fetch_consumer_empty (h : s.nextTurn = some .consumer) (hq : s.outq = []) : s.fetch = some .outEnd := by
  simp [State.fetch, h, State.outData, hq]

theorem fetch_controller {c r : Bool} (h : s.nextTurn = some (.controller c r)) :
    s.fetch = if r then some .reset else if c then some .clear else none := by
  cases c <;> cases r <;> simp [State.fetch, h, fetchWire, decode, decodeControl]

/-- The next turn is not one that waits: a producer that has it offers nothing, is let in, or finds no live block. -/
theorem not_waits_of_nextTurn {u : Turn} (h : s.nextTurn = some u) : s.waits u = false := by
  simpa using List.find?_some h

/-- A consumer whose turn is the next one of a live block finds a token. -/
theorem outq_of_nextTurn_consumer (hl : s.live = true) (h : s.nextTurn = some .consumer) : ∃ o q, s.outq = o :: q := by
  have hw := not_waits_of_nextTurn h
  cases hq : s.outq with
  | nil => simp [State.waits, hl, hq] at hw
  | cons o q => exact ⟨o, q, rfl⟩

/-- A producer whose turn is the next one of a live block, with a token on offer, is let in. -/
theorem inReady_of_nextTurn_producer {tok : InBits} {rest : List InBits} (hl : s.live = true)
    (h : s.nextTurn = some .producer) (ht : s.inTokens = tok :: rest) : s.inReady = true := by
  simpa [State.waits, hl, ht] using not_waits_of_nextTurn h

end Sys2Proof.Machine
end

