-- ==== Sys2Proof/Laws/Transfers.lean ====
section
/-! SUPPORT. Laws/Transfers.lean: what a step can do when it is no CLEAR or RESET. -/

namespace Sys2Proof.Machine

variable {s t : State}

/-- The byte's token is read back as IN_BYTE (R50). -/
theorem decodeIn_byteToken (d : Byte) : decodeIn (byteToken d) = .inByte d := by revert d; decide

/-- The producer's end token is read as IN_END (R51). -/
theorem decodeIn_endToken : decodeIn endToken = .inEnd 0 := by decide

/-- `phase` is 0, 1 or 2 (R19). -/
theorem phase_cases (s : State) : s.phase = 0 ∨ s.phase = 1 ∨ s.phase = 2 := by omega

/-- The bytes of the current group accepted so far, oldest first (R20). -/
def State.partialGroup (s : State) : List Byte :=
  if s.phase = 0 then [] else if s.phase = 1 then [s.asm0] else [s.asm0, s.asm1]

theorem State.partialGroup_length (s : State) : s.partialGroup.length = s.phase := by
  rcases phase_cases s with h | h | h <;> simp [State.partialGroup, h]

/-- An input transaction touches neither the host's lists nor `live`, the depth or what was delivered. -/
theorem exec_decodeIn_host {tok : InBits} (h : exec (decodeIn tok) s = .next t) :
    t.turns = s.turns ∧ t.inTokens = s.inTokens ∧ t.live = s.live ∧ t.outqDepth = s.outqDepth ∧ t.taken = s.taken := by
  unfold decodeIn at h
  split at h <;> obtain ⟨-, ⟨-, rfl⟩ | ⟨-, rfl⟩⟩ := State.acceptInput_next.1 h <;> simp

/-- A step of a live block that is no CLEAR or RESET: every agent waits and nothing changes; or the next turn is over, and it was one in
which nothing was driven, the consumer's transfer of the head of `outq`, or the producer's of its offered token. -/
theorem transfer_step_cases (hl : s.live = true) (he : s.nextTurn.any Turn.isEvent = false) (h : step s = .next t) :
    ((∀ w ∈ s.turns, s.waits w = true) ∧ t = s) ∨
      ∃ ws u ts, s.turns = ws ++ u :: ts ∧ (∀ w ∈ ws, s.waits w = true) ∧
        ((u ≠ .consumer ∧ (u = .producer → s.inTokens = []) ∧ t = { s with turns := ws ++ ts }) ∨
          (u = .consumer ∧ ∃ o q, s.outq = o :: q ∧
            t = { s with turns := ws ++ ts, outq := q, taken := s.taken ++ [o] }) ∨
          (u = .producer ∧ ∃ tok rest, s.inTokens = tok :: rest ∧ s.inReady = true ∧
            exec (decodeIn tok) { s with turns := ws ++ ts, inTokens := rest } = .next t)) := by
  rcases nextTurn_cases s with hall | ⟨ws, u, ts, ht, hw, hu, hn⟩
  · exact .inl ⟨hall, by simpa [step_of_all_wait hall] using h.symm⟩
  · refine .inr ⟨ws, u, ts, ht, hw, ?_⟩
    have ha := advance_eq ht hw hu
    cases u with
    | producer =>
      cases hin : s.inTokens with
      | nil =>
        rw [step, fetch_producer_silent hn hin, ha] at h
        refine .inl ⟨by simp, fun _ => rfl, ?_⟩
        simpa [hin] using h.symm
      | cons tok rest =>
        rw [step, fetch_producer hn hin, ha] at h
        exact .inr (.inr ⟨rfl, tok, rest, rfl, inReady_of_nextTurn_producer hl hn hin, by simpa [hin] using h⟩)
    | consumer =>
      obtain ⟨o, q, hq⟩ := outq_of_nextTurn_consumer hl hn
      rw [step, fetch_consumer hn hq, ha] at h
      dsimp only at h
      rw [exec_takeInstr] at h
      obtain ⟨-, ⟨-, rfl⟩ | ⟨hr, -⟩⟩ := State.giveOutput_next.1 h
      · exact .inr (.inl ⟨rfl, o, q, hq, by simp [State.deliver, hq]⟩)
      · simp [State.outData, hq] at hr
    | controller c r =>
      have hcr : c = false ∧ r = false := by simpa [hn, Turn.isEvent] using he
      rw [step, fetch_controller hn, ha] at h
      refine .inl ⟨by simp, by simp, ?_⟩
      simpa [hcr.1, hcr.2] using h.symm

/-- Where every agent that has a turn waits, no number of steps changes anything (R100). -/
theorem runSteps_of_all_wait (h : ∀ w ∈ s.turns, s.waits w = true) (n : Nat) : runSteps n s = .next s := by
  induction n with
  | zero => rfl
  | succ n ih => rw [runSteps, step_of_all_wait h]; exact ih

/-- One more step of a run without CLEAR or RESET. -/
theorem transferRun_succ {n : Nat} {u : State} :
    transferRun (n + 1) s = some u ↔
      s.nextTurn.any Turn.isEvent = false ∧ ∃ t, step s = .next t ∧ transferRun n t = some u := by
  rw [transferRun]
  cases he : s.nextTurn.any Turn.isEvent
  · cases step s <;> simp
  · simp

end Sys2Proof.Machine
end

