-- ==== Sys2Proof/Tests/Slice0.lean ====
section
/-! SUPPORT. Tests/Slice0.lean: the WellFormed smoke, the decoding of words written out from the spec's encodings, one step per test with
values from spec/95_test_vectors.md, and one witness for the hypotheses of each statement that has some. -/

namespace Sys2Proof.Tests

open Sys2Proof.Machine

/-- The next state a step answers, if it answers one. -/
def nextState : StepOutcome → Option State
  | .next t => some t
  | .fault _ => none
  | .refused _ => none

/-- The fault a step answers, if it answers one. -/
def faultOf : StepOutcome → Option Fault
  | .next _ => none
  | .fault f => some f
  | .refused _ => none

/-- A state as 95_test_vectors.md writes it, at the reference depth 2, in the first group of its stream, with nothing of the host's. -/
def st (live : Bool) (phase : Fin 3) (asm0 asm1 : Byte) (outq : List OutToken) : State :=
  { State.reset with live := live, phase := phase, asm0 := asm0, asm1 := asm1, outq := outq, inPos := phase }

/-- The first group of program P2, decoded. -/
def groupA : List OutToken := [.word 0x3E8D011A, .word 0xBF29E154]

/-! ## WellFormed smoke: an ill-formed term for each check -/

theorem test_wellFormed_refuses_driven_reserved_bits : (Instr.inEnd 0x01).wellFormed = false := by decide
theorem test_wellFormed_refuses_minus_zero : (Instr.outWord 0x80000000).wellFormed = false := by decide
theorem test_wellFormed_refuses_subnormal : (Instr.outWord 0x00000001).wellFormed = false := by decide
theorem test_wellFormed_refuses_infinity : (Instr.outWord 0x7F800000).wellFormed = false := by decide
theorem test_wellFormed_accepts_samples :
    (Instr.outWord 0x00000000).wellFormed = true ∧ (Instr.outWord 0xBF800100).wellFormed = true ∧
      (Instr.inEnd 0x00).wellFormed = true ∧ (Instr.inByte 0xFF).wellFormed = true := by decide

/-! ## Decoding words written out from the encodings -/

/- R50, pattern 0dddddddd, at both ends of d; 95 section 5: BYTE 0x0F is in_token 0x00F. -/
theorem test_decode_inByte :
    decodeIn 0b000001111#9 = .inByte 0x0F ∧ decodeIn 0b011111111#9 = .inByte 0xFF ∧
      decodeTableWord 16 0x000 = some (.inByte 0x00) := by decide
/- R51, pattern 1rrrrrrrr: bit 8 alone. -/
theorem test_decode_inEnd :
    decodeIn 0b100000000#9 = .inEnd 0x00 ∧ decodeIn 0b110100101#9 = .inEnd 0xA5 ∧
      decodeTableWord 16 0x100 = some (.inEnd 0x00) := by decide
/- R53; 95 section 5: TAKE of WORD 0xBA000100 is out_token 0x0BA000100. -/
theorem test_decode_outWord :
    decodeOut 0x0BA000100#33 = .outWord 0xBA000100 ∧ decodeTableWord 40 0 = some (.outWord 0) := by decide
/- R54; OEND is out_token 0x100000000. -/
theorem test_decode_outEnd :
    decodeOut 0x100000000#33 = .outEnd ∧ decodeTableWord 40 0x100000000 = some .outEnd := by decide
/- R55: clear alone, rst alone, both (RESET takes effect), neither (no event). -/
theorem test_decode_control :
    fetchWire (.control true false) = some .clear ∧ fetchWire (.control false true) = some .reset ∧
      fetchWire (.control true true) = some .reset ∧ fetchWire (.control false false) = none := by decide
/- R57: 95 section 2.4, row 34 12 AB: packed 0xAB1234, s0_raw 0x234, s1_raw 0xAB1. -/
theorem test_decode_triplet :
    decodeTriplet 0xAB1234#24 = .decodeGroup 0xAB1 0x234 ∧
      decodeTableWord 24 0 = some (.decodeGroup 0x000 0x000) := by decide
/- R60: a word with bits above its token's width is on no port. -/
theorem test_decode_refuses_stray_bits :
    decodeTableWord 16 0x200 = none ∧ decodeTableWord 40 0x200000000 = none ∧ decodeTableWord 48 0 = none := by decide

/-! ## The datapath (95 sections 1.1, 2.1, 2.3, 6) -/

theorem test_pack_source_example :
    pack 0xFF 0x0F 0x00 = 0x000FFF ∧ unpackS0 0x000FFF = 0xFFF ∧ unpackS1 0x000FFF = 0x000 := by decide
theorem test_pack_splits_middle_byte :
    unpackS0 (pack 0x34 0x12 0xAB) = 0x234 ∧ unpackS1 (pack 0x34 0x12 0xAB) = 0xAB1 := by decide
/- 90_conflicts.md C1: 0xFFF is -16, not -1. -/
theorem test_sx16_scales : (sx16 0xFFF).toInt = -16 ∧ (sx16 0x800).toInt = -32768 ∧ (sx16 0x7FF).toInt = 32752 := by
  decide
/- Section 2.1: rounding up at 0x201, the least output at 0x800, the greatest at 0x7FF. -/
theorem test_sample_corners :
    sample 0x201 = 0x3E804101 ∧ sample 0x800 = 0xBF800100 ∧ sample 0x7FF = 0x3F7FE200 ∧
      sample 0xABC = 0xBF288151 := by decide
/- Section 2.3: the ends of int16, 1 and -1000. -/
theorem test_i2f_corners :
    i2fBits 1 = 0x38000100 ∧ i2fBits (-1000) = 0xBCFA01F4 ∧ i2fBits 32767 = 0x3F800000 ∧
      i2fBits (-32768) = 0xBF800100 := by decide
/- R69, R70: ITOF(-16) = 0xC1800000, NORM of it 0xBA000100; 32768.0 and 0.5 are no operands of NORM, -32768.0 is one. -/
theorem test_itof_norm :
    itof (-16) = 0xC1800000 ∧ normalise 0xC1800000 = some 0xBA000100 ∧ normalise 0x47000000 = none ∧ normalise 0x3F000000 = none ∧
      normalise 0xC7000000 = some 0xBF800100 := by decide
/- R79: the binary32 reciprocal gives another word at 0x201. -/
theorem test_reciprocal_differs : viaReciprocal32 (sx16 0x201) = 0x3E804100 := by decide
/- R37: file bytes of 0xBA000100. -/
theorem test_word_bytes : wordBytes 0xBA000100 = [0x00, 0x01, 0x00, 0xBA] := by decide

/-! ## One step per transaction -/

/- 95 section 3.1, row 4: asm1 keeps 0x12. -/
theorem test_inByte_first :
    nextState (exec (.inByte 0x01) (st true 0 0x34 0x12 [])) = some (st true 1 0x01 0x12 []) := by decide
/- 95 section 3.1, row 3. -/
theorem test_inByte_third :
    nextState (exec (.inByte 0xAB) (st true 2 0x34 0x12 [])) = some { st true 0 0x34 0x12 groupA with inPos := 3 } := by
  decide +kernel
/- 95 section 3.2, row 3: both leftover bytes are discarded. -/
theorem test_inEnd_discards_leftover :
    nextState (exec (.inEnd 0x00) (st true 2 0x01 0x02 [])) = some (st true 0 0x01 0x02 [.endMark]) := by decide
/- 95 section 3.2, row 4: with depth 2 END waits until both words have been taken; with depth 4 it goes in behind them. -/
theorem test_inEnd_waits_by_depth :
    nextState (exec (.inEnd 0x00) (st true 0 0x34 0x12 groupA)) = some (st true 0 0x34 0x12 groupA) ∧
      (nextState (exec (.inEnd 0x00) { st true 0 0x34 0x12 groupA with outqDepth := 4 })).map State.outq =
        some (groupA ++ [.endMark]) := by decide
/- 95 section 3.3, row 1. -/
theorem test_outWord_delivers :
    nextState (exec (.outWord 0xBA000100) (st true 0 0 0 [.word 0xBA000100, .word 0])) =
      some { st true 0 0 0 [.word 0] with taken := [.word 0xBA000100] } := by decide
/- R84: if the head is End, this step is not enabled. -/
theorem test_outWord_waits_behind_end :
    nextState (exec (.outWord 0) (st true 0 0 0 [.endMark])) = some (st true 0 0 0 [.endMark]) := by decide
/- 95 section 3.3, row 3. -/
theorem test_outEnd_delivers :
    nextState (exec .outEnd (st true 0 0 0 [.endMark])) = some { st true 0 0 0 [] with taken := [.endMark] } := by
  decide
/- Program P3, line 6. -/
theorem test_clear_aborts :
    nextState (exec .clear (st true 2 0x01 0x02 [.word 0xBC000100])) = some (st true 0 0x01 0x02 []) := by decide
/- 95 section 4, vector 2, and R114: CLEAR before the first RESET. -/
theorem test_clear_before_reset_faults : faultOf (exec .clear (st false 1 0x77 0x66 [])) = some .notReset := by decide
/- 95 section 4, vector 4, from an unknown state. -/
theorem test_reset_from_unknown : nextState (exec .reset (st false 1 0x77 0x66 groupA)) = some State.reset := by decide
/- R75: the group FF 0F 00 fires at phase 2 with its first two bytes in asm0 and asm1. -/
theorem test_decodeGroup_fires :
    nextState (exec (.decodeGroup 0x000 0xFFF) (st true 2 0xFF 0x0F [])) =
      some { st true 0 0xFF 0x0F [.word 0xBA000100, .word 0x00000000] with inPos := 3 } := by decide +kernel
/- R75: it fires in no other phase. -/
theorem test_decodeGroup_needs_phase_two :
    nextState (exec (.decodeGroup 0x000 0xFFF) (st true 1 0xFF 0x0F [])) = some (st true 1 0xFF 0x0F []) := by decide

/-! ## Steps -/

/- Program P5. -/
theorem test_step_byte_before_reset_faults :
    faultOf (step { st false 0 0 0 [] with turns := [.producer], inTokens := [0x012] }) = some .notReset := by decide
/- 95 section 4, vector 3: TAKE before the first RESET. -/
theorem test_step_take_before_reset_faults :
    faultOf (step { st false 0 0 0 [] with turns := [.consumer] }) = some .notReset := by decide
/- 95 section 3.3, row 4: TAKE on an empty queue waits. -/
theorem test_step_take_empty_waits :
    nextState (step { st true 0 0 0 [] with turns := [.consumer] }) = some { st true 0 0 0 [] with turns := [.consumer] } := by
  decide
/- R87, R100: the consumer's wait gates no other agent, and ends with the token that comes: END, then the TAKE that waited. -/
theorem test_step_waiting_take_is_kept :
    nextState (runSteps 2 { st true 0 0 0 [] with turns := [.consumer, .producer], inTokens := [0x100] }) =
      some { st true 0 0 0 [] with taken := [.endMark] } := by decide
/- 95 section 3.4: with depths 2 and 3 the byte stays on offer; with depth 4 it is accepted at once. -/
theorem test_step_offer_by_depth :
    (nextState (step { st true 0 0 0 groupA with turns := [.producer], inTokens := [0x001] })).map State.inTokens =
      some [0x001] ∧
    (nextState (step { st true 0 0 0 groupA with turns := [.producer], inTokens := [0x001], outqDepth := 3 })).map
      State.inTokens = some [0x001] ∧
    (nextState (step { st true 0 0 0 groupA with turns := [.producer], inTokens := [0x001], outqDepth := 4 })).map
      State.asm0 = some 0x01 := by decide
/- R120: under RESET the offered token stays on offer. -/
theorem test_step_reset_keeps_offer :
    (nextState (step { st true 1 0x12 0 [] with turns := [.controller true true], inTokens := [0x034] })).map
      State.inTokens = some [0x034] := by decide
/- The table's words run first after reset: here the group FF 0F 00. -/
theorem test_withFetchWord_runs_group :
    (nextState (step (State.reset.withFetchWord 24 0x000FFF))).map State.outq =
      some [.word 0xBA000100, .word 0x00000000] := by decide
theorem test_withFetchWord_runs_outEnd :
    (nextState (step (State.reset.withFetchWord 40 0x100000000))).map State.taken = some [.endMark] := by decide

/-- A live block whose queue is full at depth 2, with a byte on offer. -/
def waiting : State :=
  { st true 0 0x34 0x12 groupA with inTokens := [0x001], turns := [.consumer, .consumer, .producer] }

/-! ## Token programs (R61, R62) and how their runs end (R124) -/

/- 95 section 3.4: at depth 2 the BYTE waits, and the second of two TAKEs lets it in: no second BYTE is needed. -/
theorem test_program_take_lets_waiting_byte_in :
    nextState (runProgram [.byte 0x01, .take, .take] (st true 0 0x34 0x12 groupA)) =
      some { st true 1 0x01 0x12 [] with taken := groupA } := by decide
/- 95 section 3.4: one TAKE does not make room at depth 2 (the producer still waits), and does at depth 3. -/
theorem test_program_one_take_by_depth :
    (nextState (runProgram [.byte 0x01, .take] (st true 0 0x34 0x12 groupA))).map State.turns = some [.producer] ∧
      (nextState (runProgram [.byte 0x01, .take] { st true 0 0x34 0x12 groupA with outqDepth := 3 })).map State.asm0 =
        some 0x01 := by decide
/- R120: the byte that waited under CLEAR is accepted after it, as the first of a new stream. -/
theorem test_program_waiting_byte_after_clear :
    nextState (runProgram [.byte 0x01, .clear] (st true 0 0x34 0x12 groupA)) = some (st true 1 0x01 0x12 []) := by decide
/- 95 section 4, vector 5: the run ends well. -/
theorem test_program_vector_5 :
    nextState (runProgram [.reset, .endStream, .take] (st false 1 0x77 0x66 groupA)) =
      some { State.reset with taken := [.endMark] } ∧ { State.reset with taken := [.endMark] }.Ended := by decide
/-- The end of vector 9 of 95 section 4: the TAKE is not enabled, the consumer waits. -/
def vector9 : State := { State.reset with turns := [.consumer] }
theorem test_program_vector_9 :
    runProgram [.reset, .endStream, .clear, .take] (st false 1 0x77 0x66 groupA) = .next vector9 := by rfl
/- R100 item 2, R124: that run ends badly, and has not reached its end. -/
theorem test_program_vector_9_is_stuck : vector9.Stuck ∧ vector9.ConsumerWaits ∧ ¬ vector9.Ended := by decide
/- 95 section 4, vector 1: a later RESET does not erase the fault. -/
theorem test_program_vector_1 :
    faultOf (runProgram [.byte 0x12, .reset] (st false 1 0x77 0x66 groupA)) = some .notReset := by decide
/- R61, in order: a TAKE that is not enabled holds the lines behind it. -/
theorem test_program_take_holds :
    (nextState (runProgram [.take, .byte 0x12] State.reset)).map State.phase = some 0 := by decide
/- The model's choice (log entry 5): before the first RESET DRAIN is one TAKE, whatever outq lists; it faults (95 section 4, vector 3). -/
theorem test_program_drain_before_reset :
    (st false 0 0 0 []).drainLines = [.take] ∧ (st false 0 0 0 groupA).drainLines = [.take] ∧
      faultOf (runProgram (st false 0 0 0 []).drainLines (st false 0 0 0 [])) = some .notReset := by decide
/- The model's choice (log entry 18): a run that stops before any RESET has not ended, whatever outq lists. -/
theorem test_ended_needs_a_reset : ¬ (st false 0 0 0 []).Ended ∧ State.reset.Ended := by decide
/- The model's choice (log entry 19): a token never accepted keeps a run from having ended; with in_ready high it is not stuck. -/
theorem test_ended_needs_every_token_accepted :
    ¬ { State.reset with inTokens := [0x012] }.Ended ∧ ¬ { State.reset with inTokens := [0x012] }.Stuck := by decide
/- U13 of 93_implementation_defined.md: an output never taken is stuck, with no turn left too; and R100 item 1: a token on offer at low
in_ready. -/
theorem test_untaken_output_is_stuck :
    (¬ (st true 0 0 0 groupA).Ended ∧ (st true 0 0 0 groupA).Stuck) ∧ { waiting with turns := [] }.Stuck ∧
      ¬ State.reset.Stuck := by decide
/- R62: STREAM with no operands is END alone; DRAIN at depth 2 with an END waiting takes its End too. -/
theorem test_program_pseudo_operations :
    streamLines [] = [.endStream] ∧ groupLines 0xFF 0x0F 0x00 = [.byte 0xFF, .byte 0x0F, .byte 0x00] ∧
      (st true 0 0 0 groupA).drainLines = [.take, .take] ∧
      ((st true 0 0 0 groupA).load .endStream).drainLines = [.take, .take, .take] := by decide

/-! ## Witnesses: each statement's hypotheses are met by a concrete state and operands -/

/-- A live block with a byte on offer at `phase = 2`. -/
def offering : State :=
  { st true 2 0x34 0x12 [] with inTokens := [0x0AB], turns := [.producer] }

/-- A block before the first RESET. -/
def unreset : State := { st false 1 0x77 0x66 groupA with inTokens := [0x012], turns := [.consumer] }

/-- A launched zero-length stream (R95), with the turns that complete it. -/
def launched : State :=
  { State.reset with inTokens := streamTokens [], turns := [.consumer, .producer] }

/-- The end of that run. -/
def launchedEnd : State := { State.reset with taken := [.endMark] }

theorem witness_AlgorithmBracketsTheQuotient :
    (1 ≤ 1 ∧ 1 ≤ 32768) ∧ (1 ≤ 32768 ∧ 32768 ≤ 32768) ∧ i2fShift 1 = 38 ∧ i2fShift 32768 = 23 := by decide
theorem witness_ConverterRoundsToNearest :
    f32Value 0x3F800000 = some 1 ∧ f32Value 0xBF800000 = some (-1) ∧ f32Value 0 = some 0 := by decide +kernel
theorem witness_ConverterIsOdd : (1 : Fixed16) ≠ 0 ∧ -32767 ≤ (-32767 : Fixed16).toInt ∧ (-32767 : Fixed16) ≠ 0 := by
  decide
theorem witness_ConverterIsStrictlyMonotonic : (-32768 : Fixed16).toInt < (32767 : Fixed16).toInt := by decide
theorem witness_SampleIsInjective : sample 0x7FF = sample 0x7FF ∧ sample 0x7FF ≠ sample 0x7FE := by decide
theorem witness_LanesAreIndependent :
    (0xF2 : Byte).extractLsb' 0 4 = (0x02 : Byte).extractLsb' 0 4 ∧
      (0x2F : Byte).extractLsb' 4 4 = (0x20 : Byte).extractLsb' 4 4 := by decide
theorem witness_TableWordsReadBack :
    tableWidth .clear = 1 ∧ 8 * ((tableWidth .clear + 7) / 8) = 8 ∧ decodeTableWord 8 1 = some .reset ∧
      8 * ((tableWidth .outEnd + 7) / 8) = 40 := by decide
theorem witness_EncodeReproducesTokens : (0x100000000 : OutBits).toNat ≤ 0x100000000 := by decide
theorem witness_ReservedBitsOfEndAreIgnored :
    (0x100 : InBits).getLsbD 8 = true ∧ (0x1A5 : InBits).getLsbD 8 = true ∧ State.reset.live = true ∧
      State.reset.inReady = true := by decide
/- IN_BYTE: before reset; waiting; ready at each phase. -/
theorem witness_ByteIsStoredOrCompletesTheGroup :
    unreset.live = false ∧
      (State.reset.live = true ∧ State.reset.inReady = true ∧ State.reset.phase = 0) ∧
      ((st true 1 0x34 0 []).inReady = true ∧ (st true 1 0x34 0 []).phase = 1) ∧
      (offering.live = true ∧ offering.inReady = true ∧ offering.phase = 2) := by decide
theorem witness_EndClosesTheStream :
    unreset.live = false ∧ (offering.live = true ∧ offering.inReady = true) := by decide
theorem witness_WordIsDeliveredOnce :
    unreset.live = false ∧ (waiting.live = true ∧ waiting.outq = .word 0x3E8D011A :: [.word 0xBF29E154]) := by decide
theorem witness_EndIsDeliveredOnce :
    unreset.live = false ∧ ((st true 0 0 0 [.endMark]).live = true ∧ (st true 0 0 0 [.endMark]).outq = .endMark :: []) := by
  decide
theorem witness_ClearAbortsTheStream :
    unreset.live = false ∧ waiting.live = true ∧
      (State.reset.live = true ∧ State.reset.phase = 0 ∧ State.reset.outq = []) := by decide
theorem witness_ResetCompletesInEveryState : 2 ≤ unreset.outqDepth := by decide
theorem witness_depth_is_legal : 2 ≤ 2 ∧ 2 ≤ 7 ∧ 2 ≤ State.reset.outqDepth := by decide
/-- A block whose group lacks its third byte, with the queue full. -/
def groupWaiting : State := st true 2 0x34 0x12 groupA
theorem witness_GroupFiresWithItsThirdByte :
    unreset.live = false ∧
      (groupWaiting.live = true ∧ groupWaiting.inReady = false ∧ groupWaiting.phase = 2 ∧
        groupWaiting.asm0 = byteA (triplet 0xAB1 0x234) ∧ groupWaiting.asm1 = byteB (triplet 0xAB1 0x234)) ∧
      (offering.live = true ∧ offering.inReady = true ∧ offering.phase = 2 ∧
        offering.asm0 = byteA (triplet 0xAB1 0x234) ∧ offering.asm1 = byteB (triplet 0xAB1 0x234)) ∧
      (offering.live = true ∧ offering.asm0 ≠ byteA (triplet 0xAB1 0x235)) ∧
      (waiting.live = true ∧ waiting.inReady = false ∧ waiting.phase ≠ 2) := by decide
theorem witness_NotResetIsTheOnlyFault :
    unreset.live = false ∧ Instr.outEnd ≠ .reset ∧ Instr.outEnd ≠ .decodeGroup 0 0 ∧ faultOf (exec .outEnd unreset) = some .notReset ∧
      faultOf (step unreset) = some .notReset := by decide
theorem witness_LiveTransactionsAlwaysAnswer : waiting.live = true := by decide
theorem witness_InputFrame :
    (nextState (exec (.inByte 0xAB) offering)).isSome = true ∧ (nextState (exec (.inEnd 0) offering)).isSome = true ∧
      (nextState (exec (.decodeGroup 0xAB1 0x234) offering)).isSome = true := by decide
theorem witness_InputFrame_asm :
    (nextState (exec (.inByte 0x01) (st true 0 0x34 0x12 []))).map State.asm0 = some 0x01 ∧
      (nextState (exec (.inByte 0x01) (st true 1 0x34 0x12 []))).map State.asm1 = some 0x01 := by decide
theorem witness_OutputFrame :
    (nextState (exec (.outWord 0x3E8D011A) waiting)).isSome = true ∧ (nextState (exec .outEnd waiting)).isSome = true := by
  decide
theorem witness_ControlFrame :
    (nextState (exec .clear waiting)).isSome = true ∧ (nextState (exec .reset unreset)).isSome = true := by decide
theorem witness_PhaseIsTheOnlySequencing :
    (nextState (exec (.inByte 0xAB) offering)).map State.phase = some 0 ∧
      (nextState (exec (.inEnd 0) offering)).map State.phase = some 0 ∧ offering.inReady = true := by decide
theorem witness_StepsNeverWriteTheParameter :
    (nextState (step { unreset with turns := [.controller false true] })).map State.live = some true := by decide
theorem witness_NothingIsReorderedOrLost :
    Instr.inByte 0xAB ≠ .clear ∧ Instr.inByte 0xAB ≠ .reset ∧
      (nextState (exec (.inByte 0xAB) offering)).map State.outq = some groupA ∧
      (nextState (exec (.inEnd 0) offering)).map State.outq = some [.endMark] ∧
      (nextState (exec (.inEnd 0) waiting)).map State.outq = some groupA ∧
      (nextState (exec (.decodeGroup 0xAB1 0x234) offering)).map State.outq = some groupA := by decide
/- The producer behind a consumer that waits; before the first RESET; and with nothing to offer. -/
theorem witness_ProducerStepRunsTheOfferedToken :
    (∀ w ∈ [Turn.consumer], offering.waits w = true) ∧ offering.inTokens = 0x0AB :: [] ∧ offering.inReady = true ∧
      unreset.inTokens = 0x012 :: [] ∧ unreset.live = false ∧ State.reset.inTokens = [] := by decide
theorem witness_ProducerStep_decodes : decode (.inToken 0x0AB) = .ok (.inByte 0xAB) := rfl
/- The consumer behind a producer that waits; with an empty queue; and before the first RESET. -/
theorem witness_ConsumerStepRunsTheHeadToken :
    (∀ w ∈ [Turn.producer], waiting.waits w = true) ∧ waiting.outq = .word 0x3E8D011A :: [.word 0xBF29E154] ∧
      (vector9.live = true ∧ vector9.outq = [] ∧ (nextState (step vector9)).isSome = true) ∧
      (unreset.turns = .consumer :: [] ∧ unreset.live = false) := by decide
theorem witness_ConsumerStep_decodes :
    decode (.outToken (outTokenBits (.word 0x3E8D011A))) = .ok (.outWord 0x3E8D011A) := rfl
theorem witness_ControllerStepRunsItsLines (c r : Bool) :
    { waiting with turns := [.producer, .controller c r] }.turns = [.producer] ++ .controller c r :: [] ∧
      ∀ w ∈ [Turn.producer], { waiting with turns := [.producer, .controller c r] }.waits w = true := by
  revert c r; decide
theorem witness_WaitingKeepsTheState :
    (waiting.live = true ∧ waiting.inReady = false ∧ waiting.outq.head? ≠ some (.word 0) ∧
      waiting.outq.head? ≠ some .endMark) ∧
      ((st true 0 0 0 [.endMark]).live = true ∧ (st true 0 0 0 [.endMark]).outq.head? ≠ some (.word 0)) ∧
      (State.reset.live = true ∧ State.reset.outq.head? ≠ some .endMark) ∧
      (∀ u ∈ vector9.turns, vector9.waits u = true) := by decide
theorem witness_ConverterResultsAreNormal : (1 : Fixed16) ≠ 0 ∧ (-32768 : Fixed16) ≠ 0 := by decide
theorem witness_ThirdByteStepFiresTheGroup :
    offering.live = true ∧ offering.inReady = true ∧ offering.phase = 2 ∧ offering.turns = [] ++ .producer :: [] ∧
      (∀ w ∈ [Turn.consumer], offering.waits w = true) ∧ offering.inTokens = byteToken 0xAB :: [] := by decide
/-- Both transfers of one cycle, at depth 4. -/
def bothTransfers : State := { waiting with outqDepth := 4, turns := [] }
theorem witness_CycleEventsHavePriorities :
    bothTransfers.live = true ∧ bothTransfers.inReady = true ∧
      bothTransfers.outq = .word 0x3E8D011A :: [.word 0xBF29E154] ∧ bothTransfers.inTokens = 0x001 :: [] ∧
      bothTransfers.cycleTurns { rst := false, clear := false, inValid := true, outReady := true } =
        [.consumer, .producer] ∧
      (waiting.live = true ∧ waiting.inReady = false ∧ waiting.outq = .word 0x3E8D011A :: [.word 0xBF29E154] ∧
        waiting.cycleTurns { rst := false, clear := false, inValid := true, outReady := true } = [.consumer]) ∧
      bothTransfers.cycleTurns { rst := true, clear := true, inValid := true, outReady := true } =
        [.controller true true] := by decide
theorem witness_CycleEvents_decodes : decode (.inToken 0x001) = .ok (.inByte 0x01) := rfl
theorem witness_EveryStepKeepsTheInvariant : waiting.Inv ∧ (nextState (step waiting)).isSome = true := by decide
theorem witness_QueueNeverOverflows :
    offering.outq.length ≤ offering.outqDepth ∧
      (nextState (exec (.inByte 0xAB) offering)).map (fun t => t.outq.length) = some 2 := by decide
/- A live block with a turn that does not wait; and a stuck state of each kind. -/
theorem witness_BlockNeverDeadlocks :
    (waiting.live = true ∧ 2 ≤ waiting.outqDepth ∧ waiting.turns ≠ [] ∧ ¬ waiting.Stuck) ∧
      { waiting with turns := [.producer] }.Stuck ∧ vector9.Stuck ∧ 2 ≤ vector9.outqDepth ∧
      { waiting with turns := [] }.Stuck := by decide
/- A producer's turn while its token waits, and a controller's turn with both lines low. -/
theorem witness_OnlyTheConsumerEndsAWait :
    { waiting with turns := [.producer] }.ProducerWaits ∧
      (nextState (step { waiting with turns := [.producer] })).isSome = true ∧
      { waiting with turns := [.producer] }.nextTurn = none ∧
      { waiting with turns := [.producer, .controller false false] }.ProducerWaits ∧
      { waiting with turns := [.producer, .controller false false] }.nextTurn = some (.controller false false) ∧
      (nextState (step { waiting with turns := [.producer, .controller false false] })).isSome = true := by decide
theorem witness_TakingEverythingEndsTheWait :
    waiting.live = true ∧ 2 ≤ waiting.outqDepth ∧ waiting.inReady = false ∧
      waiting.outq = .word 0x3E8D011A :: [.word 0xBF29E154] ∧
      waiting.turns = List.replicate waiting.outq.length .consumer ++ .producer :: [] ∧
      waiting.inTokens = 0x001 :: [] := by decide
/- The single take makes room at depth 3. -/
theorem witness_TakingEverything_one_take :
    { waiting with outqDepth := 3 }.inReady = false ∧
      (nextState (step { waiting with outqDepth := 3, turns := [.producer, .consumer] })).map State.inReady = some true := by
  decide
theorem witness_DeadBytesMakeNoDifference :
    (st true 0 0x11 0x22 groupA).SameUpToDeadBytes (st true 0 0x33 0x44 groupA) ∧
      (st true 1 0x11 0x22 []).SameUpToDeadBytes (st true 1 0x11 0x44 []) ∧
      (nextState (step (st true 0 0x11 0x22 groupA))).isSome = true := by decide
/- The consumer waits, the producer sends IN_END, the consumer takes `End`. -/
theorem witness_launched_run : transferRun 2 launched = some launchedEnd ∧ launched.AtStreamStart ∧ launchedEnd.Ended := by
  decide
/-- A stream of one leftover byte, after a stream that ended, with tokens of another stream behind it. -/
def launchedBehind : State :=
  { State.resetAt 3 with
    outq := [.endMark], inTokens := streamTokens [0x11] ++ [0x022]
    turns := [.producer, .producer, .consumer, .consumer, .controller true false] }
theorem witness_StreamOutputIsTheStreamFunction :
    launchedBehind.AtStreamStart ∧ launchedBehind.inTokens = streamTokens [0x11] ++ [0x022] ∧
      (transferRun 2 launchedBehind).map State.inTokens = some [0x022] := by decide
/- In the middle of a stream: one byte accepted. -/
theorem witness_PhaseCountsTheBytes :
    launchedBehind.inTokens = [0x11].map byteToken ++ [0x100, 0x022] ∧
      (transferRun 1 launchedBehind).map State.inTokens = some [0x100, 0x022] := by decide
/-- One group, of which the consumer takes sample 0 alone. -/
def halfTaken : State :=
  { State.reset with inTokens := streamTokens [0x34, 0x12, 0xAB], turns := [.consumer, .producer, .producer, .producer] }
theorem witness_CutStreamLeavesAPrefix :
    halfTaken.AtStreamStart ∧ halfTaken.inTokens = streamTokens [0x34, 0x12, 0xAB] ++ [] := by decide
theorem witness_CutStream_odd :
    (transferRun 4 halfTaken).map State.taken = some [.word 0x3E8D011A] ∧
      streamWords [0x34, 0x12, 0xAB] = groupA := by decide +kernel
theorem witness_CutStream_cut :
    (nextState (exec .clear halfTaken)).isSome = true ∧ (nextState (exec .reset halfTaken)).isSome = true := by decide
/-- The same stream at another depth and under another schedule. -/
def launchedSlow : State :=
  { State.resetAt 5 with inTokens := streamTokens [], turns := [.controller false false, .producer, .consumer] }
theorem witness_OutputIsScheduleIndependent :
    launchedSlow.AtStreamStart ∧ launched.inTokens = streamTokens [] ∧ launchedSlow.inTokens = streamTokens [] ∧
      launched.taken = launchedSlow.taken ∧ launched.outq = launchedSlow.outq ∧
      (transferRun 3 launchedSlow).map (fun t => decide t.Ended) = some true := by decide
/-- Two zero-length streams, one after the other. -/
def twoStreams : State :=
  { State.reset with
    inTokens := streamTokens [] ++ streamTokens [], turns := [.producer, .consumer, .producer, .consumer] }
theorem witness_StreamsAreIndependent_ended :
    twoStreams.AtStreamStart ∧ twoStreams.inTokens = streamTokens [] ++ (streamTokens [] ++ []) ∧
      (transferRun 4 twoStreams).map (fun t => (t.inTokens, t.outq)) = some ([], []) := by decide
/- A CLEAR while a byte waits, and a zero-length stream after it. -/
theorem witness_StreamsAreIndependent_cut :
    { waiting with turns := [.controller true false] }.nextTurn = some (.controller true false) ∧
      nextState (step { waiting with turns := [.controller true false] }) =
        some { st true 0 0x34 0x12 [] with inTokens := [0x001] } ∧
      (transferRun 2 { st true 0 0x34 0x12 [] with
        inTokens := streamTokens [] ++ [], turns := [.producer, .consumer] }).map State.inTokens = some [] := by decide
theorem witness_FairlyScheduledStreamCompletes :
    launched.Launched [] [] [.consumer, .producer] [] ∧ 2 ≤ launched.outqDepth ∧
      [Turn.consumer, .producer].count .producer = ([] : List Byte).length + 1 ∧
      [Turn.consumer, .producer].count .consumer = launched.outq.length + (streamOutput []).length := by decide
/- A control event after the stream's turns, and the `End` of the stream before it still queued. -/
theorem witness_Launched_behind_another :
    launchedBehind.Launched [0x11] [0x022] [.producer, .producer, .consumer, .consumer] [.controller true false] := by decide
theorem witness_WordsAreSerialisedLittleEndian :
    ([0xBA000100, 0x3F7FE200] : List Word32)[1]? = some 0x3F7FE200 ∧
      (fileBytes [.word 0xBA000100, .word 0x3F7FE200])[7]? = some 0x3F := by decide
/- No leftover byte, one and two, with the tokens of the second file behind them, accepted in one step each. -/
theorem witness_UnseparatedStreamsJoin :
    ([] : List Byte).length % 3 = 0 ∧
      ((([] ++ [0x22] : List Byte).map byteToken ++ [0x100]) = [0x022, 0x100]) ∧
      (((([] ++ [0x11]) ++ (0x22 :: 0x33 :: [])) : List Byte).map byteToken ++ [0x100]) = [0x011, 0x022, 0x033, 0x100] ∧
      (((([] ++ [0x11, 0x22]) ++ (0x33 :: [])) : List Byte).map byteToken ++ [0x100]) = [0x011, 0x022, 0x033, 0x100] := by
  decide
/-- Three bytes sent one after the other. -/
def unseparated : State :=
  { State.reset with inTokens := [0x011, 0x022, 0x033, 0x100], turns := [.producer, .producer, .producer] }
theorem witness_UnseparatedStreams_run :
    unseparated.AtStreamStart ∧ (transferRun 3 unseparated).map State.inTokens = some [0x100] ∧
      (transferRun 1 { unseparated with inTokens := [0x022, 0x100] }).map State.inTokens = some [0x100] := by decide +kernel

end Sys2Proof.Tests
end

section
/-! The words of R73: R72's shift search and its rounding, and the exponent they give a sample. -/

namespace Sys2Proof.Machine

/-- The `exp` field of an assembled word (R56). -/
theorem f32Exp_f32Bits (sign : Bool) (exp frac : Nat) : f32Exp (f32Bits sign exp frac) = exp % 256 := by
  have field : (f32Bits sign exp frac).extractLsb' 23 8 = BitVec.ofNat 8 exp := by
    rw [f32Bits, BitVec.extractLsb'_append_eq_of_le le_rfl]
    exact BitVec.extractLsb'_append_eq_right
  rw [f32Exp, field, BitVec.toNat_ofNat]

/-- What the search finds, where its last try `k + fuel` would do: the least shift from `k` on that reaches the target. -/
theorem findShift_spec {target num : Nat} :
    ∀ {fuel k : Nat}, target ≤ num * 2 ^ (k + fuel) →
      target ≤ num * 2 ^ findShift target num fuel k ∧ k ≤ findShift target num fuel k ∧
        ∀ j, k ≤ j → j < findShift target num fuel k → num * 2 ^ j < target
  | 0, k, h => ⟨h, le_rfl, fun j hkj hj => absurd hj (Nat.not_lt.2 hkj)⟩
  | fuel + 1, k, h => by
    unfold findShift
    split
    case isTrue found => exact ⟨found, le_rfl, fun j hkj hj => absurd hj (Nat.not_lt.2 hkj)⟩
    case isFalse short =>
      have h' : target ≤ num * 2 ^ (k + 1 + fuel) := by rwa [Nat.add_right_comm]
      obtain ⟨reached, low, least⟩ := findShift_spec h'
      refine ⟨reached, Nat.le_of_succ_le low, fun j hkj hj => ?_⟩
      obtain rfl | later := Nat.eq_or_lt_of_le hkj
      · exact Nat.lt_of_not_le short
      · exact least j later hj

/-- R72's `k` for a magnitude of at least 1: it reaches `2^23 * 32767`, is at least 23, and no smaller shift from 23 on reaches it. -/
theorem i2fShift_spec {m : Nat} (hm : 1 ≤ m) :
    2 ^ 23 * 32767 ≤ m * 2 ^ i2fShift m ∧ 23 ≤ i2fShift m ∧
      ∀ j, 23 ≤ j → j < i2fShift m → m * 2 ^ j < 2 ^ 23 * 32767 :=
  findShift_spec (show 2 ^ 23 * divisor ≤ m * 2 ^ (23 + 15) by simp only [divisor]; omega)

/-- R72's `k` never overshoots: the dividend stays below `2^24 * 32767`. -/
theorem mul_two_pow_i2fShift_lt {m : Nat} (hm : 1 ≤ m) (hmax : m ≤ 32768) :
    m * 2 ^ i2fShift m < 2 ^ 24 * 32767 := by
  obtain ⟨-, low, least⟩ := i2fShift_spec hm
  obtain h | ⟨j, hj⟩ : i2fShift m = 23 ∨ ∃ j, i2fShift m = j + 1 ∧ 23 ≤ j :=
    (Nat.eq_or_lt_of_le low).imp Eq.symm fun h => ⟨i2fShift m - 1, by omega⟩
  · rw [h]; omega
  · have below := least j hj.2 (by omega)
    rw [hj.1, pow_succ, ← mul_assoc]; omega

/-- The carry branch of R72 is never taken: dividend and bound are multiples of `2^23`, and a carry needs them less than 32767 apart. -/
theorem i2fSig_lt {m : Nat} (hm : 1 ≤ m) (hmax : m ≤ 32768) : i2fSig m < 2 ^ 24 := by
  have below := mul_two_pow_i2fShift_lt hm hmax
  obtain ⟨n, hn⟩ : 2 ^ 23 ∣ m * 2 ^ i2fShift m :=
    (Nat.pow_dvd_pow 2 (i2fShift_spec hm).2.1).mul_left m
  simp only [i2fSig, divisor, hn] at below ⊢
  split <;> omega

/-- From magnitude 16 on, R72's `k` is at most 34. -/
theorem i2fShift_le {m : Nat} (hm : 16 ≤ m) : i2fShift m ≤ 34 := by
  by_contra h
  have := (i2fShift_spec (by omega)).2.2 34 (by omega) (Nat.lt_of_not_le h)
  omega

/-- The exponent R72 gives a nonzero result. -/
theorem f32Exp_i2fBits {v : Fixed16} (hv : v ≠ 0) :
    f32Exp (i2fBits v) = (150 - i2fShift v.toInt.natAbs) % 256 := by
  have nonzero : v.toInt ≠ 0 := fun h => hv (BitVec.eq_of_toInt_eq h)
  have low := BitVec.le_toInt v
  have high := BitVec.toInt_lt (x := v)
  have carry : i2fSig v.toInt.natAbs ≠ 2 ^ 24 := (i2fSig_lt (by omega) (by omega)).ne
  simp only [i2fBits, hv, carry, if_false, f32Exp_f32Bits]

/-- R72, R73: a sample is +0.0 or has `exp` in 116 to 127. -/
theorem sampleWord_sample (raw : Raw12) : sampleWord (sample raw) = true := by
  by_cases zero : sx16 raw = 0
  · simp [sampleWord, sample, i2fBits, zero]
  · have scaled : (sx16 raw).toInt = 2 ^ 4 * raw.toInt := BitVec.toInt_append_zero
    have nonzero : (sx16 raw).toInt ≠ 0 := fun h => zero (BitVec.eq_of_toInt_eq h)
    have upper : i2fShift (sx16 raw).toInt.natAbs ≤ 34 := i2fShift_le (by omega)
    have lower : 23 ≤ i2fShift (sx16 raw).toInt.natAbs := (i2fShift_spec (by omega)).2.1
    have inRange : 116 ≤ f32Exp (sample raw) ∧ f32Exp (sample raw) ≤ 127 := by
      rw [sample, f32Exp_i2fBits zero]; omega
    simp [sampleWord, inRange]

end Sys2Proof.Machine
end

section
/-! What one transaction can do (R82 to R86, R113, R75), said once, and what follows for each part of the invariant of R28. -/

namespace Sys2Proof.Machine

/-- The block's side of the enabling of a transaction (R87), for a live block. -/
def State.enables (s : State) : Instr → Prop
  | .inByte _ => s.inReady = true
  | .inEnd _ => s.inReady = true
  | .outWord w => s.outData = some (.word w)
  | .outEnd => s.outData = some .endMark
  | .clear => True
  | .reset => True
  | .decodeGroup h l => s.inReady = true ∧ s.holdsGroup (triplet h l) = true

/-- The state a transaction leaves, where it answers one: its own effect where it is enabled, else the state as it was. -/
inductive ExecEffect (s : State) : Instr → State → Prop
  | waits (i : Instr) (low : ¬ s.enables i) : ExecEffect s i s
  | byte (d : Byte) (ready : s.inReady = true) : ExecEffect s (.inByte d) (s.putByte d)
  | ended (r : Byte) (ready : s.inReady = true) : ExecEffect s (.inEnd r) s.putEnd
  | group (h l : Raw12) (ready : s.inReady = true) (third : s.phase = 2) :
      ExecEffect s (.decodeGroup h l) (s.completeGroup (triplet h l))
  | wordTaken (w : Word32) (head : s.outData = some (.word w)) : ExecEffect s (.outWord w) (s.deliver (.word w))
  | endTaken (head : s.outData = some .endMark) : ExecEffect s .outEnd (s.deliver .endMark)
  | cleared : ExecEffect s .clear s.clearQueue.startStream
  | wasReset : ExecEffect s .reset ((s.goLive.startStream.setAsm0 0x00).setAsm1 0x00).clearQueue

variable {i : Instr} {s t : State}

theorem State.phase_of_holdsGroup {p : Packed24} (h : s.holdsGroup p = true) : s.phase = 2 := by
  simp only [State.holdsGroup, Bool.and_eq_true, beq_iff_eq] at h
  exact h.1.1

/-- A transaction that answers a next state has one of the effects above. -/
theorem exec_effect (h : exec i s = .next t) : ExecEffect s i t := by
  cases i with
  | inByte d =>
    obtain ⟨-, ⟨ready, rfl⟩ | ⟨low, rfl⟩⟩ := State.acceptInput_next.1 h
    · exact .byte d ready
    · exact .waits _ (by simp [State.enables, low])
  | inEnd r =>
    obtain ⟨-, ⟨ready, rfl⟩ | ⟨low, rfl⟩⟩ := State.acceptInput_next.1 h
    · exact .ended r ready
    · exact .waits _ (by simp [State.enables, low])
  | outWord w =>
    obtain ⟨-, ⟨head, rfl⟩ | ⟨other, rfl⟩⟩ := State.giveOutput_next.1 h
    · exact .wordTaken w head
    · exact .waits _ other
  | outEnd =>
    obtain ⟨-, ⟨head, rfl⟩ | ⟨other, rfl⟩⟩ := State.giveOutput_next.1 h
    · exact .endTaken head
    · exact .waits _ other
  | clear =>
    obtain ⟨-, hnext⟩ := State.whenLive_next.1 h
    cases hnext
    exact .cleared
  | reset =>
    cases h
    exact .wasReset
  | decodeGroup h' l =>
    obtain ⟨-, ⟨ready, rfl⟩ | ⟨low, rfl⟩⟩ := State.acceptInput_next.1 h
    · split
      case isTrue held => exact .group h' l ready (State.phase_of_holdsGroup held)
      case isFalse other => exact .waits _ (by simp [State.enables, other])
    · exact .waits _ (by simp [State.enables, low])

/-! The byte's case distinction of R82, in the fields it writes -/

/-- An accepted byte advances `phase` modulo 3 (R18). -/
@[simp] theorem State.putByte_phase (s : State) (d : Byte) : (s.putByte d).phase = s.phase + 1 := by
  obtain h | h | h := phase_cases s
  · simp [State.putByte_first s d h, h]
  · simp [State.putByte_second s d h, h]
  · simp [State.putByte_third s d h, h]

/-- The tokens an accepted byte enqueues (R46): the two words of the group it completes, if it completes one. -/
def State.byteOutput (s : State) (d : Byte) : List OutToken :=
  if s.phase = 2 then [.word (decodeGroup s.asm0 s.asm1 d).1, .word (decodeGroup s.asm0 s.asm1 d).2] else []

@[simp] theorem State.putByte_outq (s : State) (d : Byte) : (s.putByte d).outq = s.outq ++ s.byteOutput d := by
  obtain h | h | h := phase_cases s
  · simp [State.putByte_first s d h, State.byteOutput, h]
  · simp [State.putByte_second s d h, State.byteOutput, h]
  · simp [State.putByte_third s d h, State.byteOutput, h, decodeGroup]

theorem State.byteOutput_length_le (s : State) (d : Byte) : (s.byteOutput d).length ≤ 2 := by
  unfold State.byteOutput; split <;> simp

/-! What the block can put in its queue is what R73 allows -/

@[simp] theorem isSample_word_sample (raw : Raw12) : (OutToken.word (sample raw)).isSample = true :=
  sampleWord_sample raw

theorem isSample_of_mem_byteOutput {d : Byte} {o : OutToken} (h : o ∈ s.byteOutput d) : o.isSample = true := by
  unfold State.byteOutput at h
  split at h
  · obtain rfl | rfl : o = _ ∨ o = _ := by simpa using h
    all_goals exact isSample_word_sample _
  · cases h

/-! Each part of the invariant, through one transaction -/

/-- No transaction writes OUTQ_DEPTH (R27). -/
theorem exec_outqDepth (h : exec i s = .next t) : t.outqDepth = s.outqDepth := by
  cases exec_effect h <;> simp

/-- Only RESET writes `live` (R23). -/
theorem exec_live (h : exec i s = .next t) (hi : i ≠ .reset) : t.live = s.live := by
  cases exec_effect h with
  | wasReset => exact absurd rfl hi
  | _ => simp

/-- A live block stays live (R23). -/
theorem exec_keeps_live (h : exec i s = .next t) (hl : s.live = true) : t.live = true := by
  by_cases hi : i = .reset
  · subst hi; cases h; rfl
  · rw [exec_live h hi, hl]

/-- What was delivered stays delivered, in order. -/
theorem exec_taken_prefix (h : exec i s = .next t) : s.taken <+: t.taken := by
  cases exec_effect h <;> simp

/-- `in_ready` leaves room for whatever one transaction enqueues (R25). -/
theorem exec_queue_fits (h : exec i s = .next t) (fits : s.outq.length ≤ s.outqDepth) :
    t.outq.length ≤ t.outqDepth := by
  rw [exec_outqDepth h]
  cases exec_effect h with
  | waits => exact fits
  | byte d ready =>
    have room := State.inReady_iff.1 ready
    have few := s.byteOutput_length_le d
    simp only [State.putByte_outq, List.length_append]; omega
  | ended r ready =>
    have room := State.inReady_iff.1 ready
    simp only [State.putEnd_outq, List.length_append, List.length_singleton]; omega
  | group h l ready => simpa using State.inReady_iff.1 ready
  | wordTaken | endTaken => exact s.outq.tail_sublist.length_le.trans fits
  | cleared | wasReset => simp

/-- `phase` stays the byte number modulo 3 (R34). -/
theorem exec_keeps_phase_law (h : exec i s = .next t) (law : (s.phase : Nat) = s.inPos % 3) :
    (t.phase : Nat) = t.inPos % 3 := by
  cases exec_effect h with
  | byte d ready =>
    rw [State.putByte_phase, State.putByte_inPos, Fin.val_add, law]
    exact Nat.mod_add_mod ..
  | group h l ready third =>
    simp only [State.completeGroup_phase, State.completeGroup_inPos, third] at law ⊢; omega
  | waits | wordTaken | endTaken => exact law
  | ended | cleared | wasReset => simp

/-- The queue and the consumer hold nothing but `End` and words of R73. -/
abbrev State.HoldsSamples (s : State) : Prop := ∀ o ∈ s.outq ++ s.taken, o.isSample = true

theorem State.holdsSamples_iff :
    s.HoldsSamples ↔ (∀ o ∈ s.outq, o.isSample = true) ∧ ∀ o ∈ s.taken, o.isSample = true :=
  List.forall_mem_append

theorem State.HoldsSamples.deliver {o : OutToken} (all : s.HoldsSamples) (head : s.outData = some o) :
    (s.deliver o).HoldsSamples := by
  obtain ⟨q, hq⟩ := State.outData_eq_some.1 head
  simp only [State.HoldsSamples, State.deliver_outq, State.deliver_taken, hq, List.tail_cons, List.forall_mem_append,
    List.forall_mem_cons] at all ⊢
  obtain ⟨⟨first, queued⟩, delivered⟩ := all
  exact ⟨queued, delivered, first, by simp⟩

/-- A transaction enqueues `End` and words of R73 alone, and delivers what was queued. -/
theorem exec_keeps_samples (h : exec i s = .next t) (all : s.HoldsSamples) : t.HoldsSamples := by
  obtain ⟨queued, delivered⟩ := State.holdsSamples_iff.1 all
  cases exec_effect h with
  | waits => exact all
  | wordTaken w head => exact all.deliver head
  | endTaken head => exact all.deliver head
  | byte d ready =>
    rw [State.holdsSamples_iff, State.putByte_outq, State.putByte_taken, List.forall_mem_append]
    exact ⟨⟨queued, fun _ => isSample_of_mem_byteOutput⟩, delivered⟩
  | ended r ready =>
    rw [State.holdsSamples_iff, State.putEnd_outq, State.putEnd_taken, List.forall_mem_append]
    exact ⟨⟨queued, by simp [OutToken.isSample]⟩, delivered⟩
  | group h l ready third =>
    rw [State.holdsSamples_iff, State.completeGroup_outq, State.completeGroup_taken, List.forall_mem_append]
    exact ⟨⟨queued, by simp [groupWords]⟩, delivered⟩
  | cleared | wasReset => simpa [State.holdsSamples_iff] using delivered

end Sys2Proof.Machine
end

section
/-! The statements about the state (10_state.md). -/

namespace Sys2Proof.Machine

/-- One transaction keeps the invariant (R28). -/
theorem exec_keeps_inv {i : Instr} {s t : State} (hs : s.Inv) (h : exec i s = .next t) : t.Inv := by
  obtain ⟨live, depth, fits, law, samples⟩ := hs
  exact ⟨exec_keeps_live h live, (exec_outqDepth h).symm ▸ depth, exec_queue_fits h fits, exec_keeps_phase_law h law,
    exec_keeps_samples h samples⟩

/-- The invariant says nothing about the tokens on offer and the turns. -/
theorem State.Inv.advance {s : State} (hs : s.Inv) : s.advance.Inv := hs

/-- Settles O46: a step is no transaction or the one fetched, and both keep each part of the invariant. -/
theorem everyStepKeepsTheInvariant : Obligations.EveryStepKeepsTheInvariant := by
  intro s t hs h
  obtain ⟨-, rfl⟩ | ⟨i, -, hexec⟩ := step_cases h
  · exact hs.advance
  · exact exec_keeps_inv hs.advance hexec

/-- Settles O36, by the effects of one transaction: only the input and control transactions have one on `phase`. -/
theorem phaseIsTheOnlySequencing : Obligations.PhaseIsTheOnlySequencing := by
  intro i s t h
  have effect := exec_effect h
  refine ⟨?byte, ?ended, ?cleared, ?wasReset, ?others⟩
  case byte =>
    rintro d rfl
    cases effect with
    | waits _ low => exact (if_neg low).symm
    | byte _ ready => rw [if_pos ready, State.putByte_phase]
  case ended =>
    rintro r rfl ready
    cases effect with
    | waits _ low => exact absurd ready low
    | ended => rfl
  case cleared =>
    rintro rfl
    cases effect with
    | waits _ low => exact absurd trivial low
    | cleared => rfl
  case wasReset =>
    rintro rfl
    cases effect with
    | waits _ low => exact absurd trivial low
    | wasReset => rfl
  case others =>
    intro moved
    cases effect with
    | waits | wordTaken | endTaken => exact absurd rfl moved
    | byte | ended | group | cleared | wasReset => simp

/-- Settles O37: with no transaction only the host's side moves, and a transaction other than RESET writes neither. -/
theorem stepsNeverWriteTheParameter : Obligations.StepsNeverWriteTheParameter := by
  intro s t h
  obtain ⟨-, rfl⟩ | ⟨i, fetched, hexec⟩ := step_cases h
  · exact ⟨rfl, fun changed => absurd rfl changed, List.prefix_rfl⟩
  · have depth := exec_outqDepth hexec
    have live := exec_live hexec
    have taken := exec_taken_prefix hexec
    refine ⟨depth, fun changed => ?_, taken⟩
    have isReset : i = .reset := by_contra fun hi => changed (live hi)
    rw [fetched, isReset]

/-- Settles O47: an enabled input transaction finds two free entries, and none enqueues more than two tokens. -/
theorem queueNeverOverflows : Obligations.QueueNeverOverflows :=
  fun _ _ _ fits h => exec_queue_fits h fits

/-- At every legal depth `in_ready` is high right after RESET (R25, R113). -/
theorem State.resetAt_inReady {depth : Nat} (legal : 2 ≤ depth) : (State.resetAt depth).inReady = true :=
  State.inReady_iff.2 (by simpa using legal)

/-- Settles O29, from the fields of the reset state. -/
theorem resetStateHasTheResetValues : Obligations.ResetStateHasTheResetValues :=
  ⟨fun _ legal => ⟨rfl, rfl, rfl, rfl, rfl, rfl, State.resetAt_inReady legal, rfl⟩, rfl⟩

/-- The invariant holds right after RESET, at every legal depth. -/
theorem State.resetAt_inv {depth : Nat} (legal : 2 ≤ depth) : (State.resetAt depth).Inv :=
  ⟨rfl, legal, Nat.zero_le depth, rfl, by simp⟩

/-- Settles O45; the reference depth is a legal one (R7). -/
theorem resetMeetsTheInvariant : Obligations.ResetMeetsTheInvariant :=
  ⟨fun _ legal => State.resetAt_inv legal, State.resetAt_inv (by decide)⟩

end Sys2Proof.Machine
end

section
/-! The lanes of a packed group as bit fields (40_datapath.md R66, R67). -/

namespace Sys2Proof.Machine

/-- The mask of both unpackers keeps the low lane. -/
theorem and_mask_setWidth (p : Packed24) : (p &&& 0xFFF).setWidth 12 = p.extractLsb' 0 12 := by
  have mask : (0xFFF : Packed24).toNat = 2 ^ 12 - 1 := rfl
  apply BitVec.eq_of_toNat_eq
  rw [BitVec.toNat_setWidth, BitVec.toNat_and, mask, Nat.and_two_pow_sub_one_eq_mod, Nat.mod_mod, BitVec.extractLsb'_toNat,
    Nat.shiftRight_zero]

theorem unpackS0_eq_extractLsb' (p : Packed24) : unpackS0 p = p.extractLsb' 0 12 := and_mask_setWidth p

theorem unpackS1_eq_extractLsb' (p : Packed24) : unpackS1 p = p.extractLsb' 12 12 := by
  rw [unpackS1, and_mask_setWidth]
  ext i hi
  simp

theorem unpackS0_triplet (h l : Raw12) : unpackS0 (triplet h l) = l := by
  rw [unpackS0_eq_extractLsb']
  exact BitVec.extractLsb'_append_eq_right

theorem unpackS1_triplet (h l : Raw12) : unpackS1 (triplet h l) = h := by
  rw [unpackS1_eq_extractLsb']
  exact BitVec.extractLsb'_append_eq_left

end Sys2Proof.Machine
end

section
/-! A stream in progress (20_memory.md R33 to R46): its complete groups and its leftover bytes, and how a run without
CLEAR or RESET carries it on. -/

namespace Sys2Proof.Machine

/-! ## Complete groups and leftover bytes (R41, R44) -/

/-- The 0 to 2 bytes behind the last complete group of a stream (R41). -/
def leftover : List Byte → List Byte
  | [] => []
  | [a] => [a]
  | [a, b] => [a, b]
  | _ :: _ :: _ :: rest => leftover rest

theorem leftover_length (x : List Byte) : (leftover x).length = x.length % 3 := by
  fun_induction leftover x with
  | case1 | case2 | case3 => rfl
  | case4 _ _ _ rest ih => simp [ih, Nat.add_mod_right rest.length 3]

/-- Bytes that follow extend the leftover bytes, and no earlier group. -/
theorem leftover_append (x y : List Byte) : leftover (x ++ y) = leftover (leftover x ++ y) := by
  fun_induction leftover x with
  | case1 | case2 | case3 => rfl
  | case4 _ _ _ rest ih => simpa [leftover] using ih

/-- The words of the complete groups stay; what follows is decoded together with the leftover bytes (R97). -/
theorem streamWords_append (x y : List Byte) : streamWords (x ++ y) = streamWords x ++ streamWords (leftover x ++ y) := by
  fun_induction leftover x with
  | case1 | case2 | case3 => rfl
  | case4 _ _ _ rest ih => simpa [streamWords] using ih

/-! ## The partial group in the block (R20, R82) -/

variable {s t : State} {base : List OutToken} {x y : List Byte}

/-- An accepted byte joins the partial group, which is empty again once it is complete. -/
theorem State.putByte_partialGroup (s : State) (d : Byte) :
    (s.putByte d).partialGroup = leftover (s.partialGroup ++ [d]) := by
  obtain h | h | h := phase_cases s
  · simp [State.putByte_first s d h, State.partialGroup, h, leftover]
  · simp [State.putByte_second s d h, State.partialGroup, h, leftover]
  · simp [State.putByte_third s d h, State.partialGroup, h, leftover]

/-- What an accepted byte enqueues is what the partial group and that byte decode to. -/
theorem State.byteOutput_eq_streamWords (s : State) (d : Byte) : s.byteOutput d = streamWords (s.partialGroup ++ [d]) := by
  obtain h | h | h := phase_cases s <;> simp [State.byteOutput, State.partialGroup, h, streamWords]

/-! ## A live block in the middle of a stream -/

/-- The block has accepted exactly the bytes `x` of the current stream, at whose start `base` had been delivered or queued. -/
structure State.MidStream (s : State) (base : List OutToken) (x : List Byte) : Prop where
  live : s.live = true
  count : s.inPos = x.length
  group : s.partialGroup = leftover x
  output : s.taken ++ s.outq = base ++ streamWords x

theorem State.AtStreamStart.midStream (h : s.AtStreamStart) : s.MidStream (s.taken ++ s.outq) [] := by
  obtain ⟨live, count, phase⟩ := h
  exact ⟨live, count, by simp [State.partialGroup, phase, leftover], by simp [streamWords]⟩

/-- The phase law of R34. -/
theorem State.MidStream.phase (h : s.MidStream base x) : (s.phase : Nat) = x.length % 3 := by
  rw [← s.partialGroup_length, h.group, leftover_length]

/-- The tokens on offer and the turns have no part in it. -/
theorem State.MidStream.withHost (h : s.MidStream base x) (inTokens : List InBits) (turns : List Turn) :
    { s with inTokens := inTokens, turns := turns }.MidStream base x :=
  ⟨h.live, h.count, h.group, h.output⟩

/-- The delivery of the head of the queue leaves delivered and queued tokens, one after the other, as they are (R43). -/
theorem State.deliver_taken_append_outq {o : OutToken} (head : s.outData = some o) :
    (s.deliver o).taken ++ (s.deliver o).outq = s.taken ++ s.outq := by
  obtain ⟨q, hq⟩ := State.outData_eq_some.1 head
  simp [hq]

theorem State.MidStream.deliver {o : OutToken} (h : s.MidStream base x) (head : s.outData = some o) :
    (s.deliver o).MidStream base x :=
  ⟨h.live, h.count, h.group, (State.deliver_taken_append_outq head).trans h.output⟩

/-- One more byte is accepted (R82). -/
theorem State.MidStream.putByte (h : s.MidStream base x) (d : Byte) : (s.putByte d).MidStream base (x ++ [d]) where
  live := by rw [State.putByte_live, h.live]
  count := by simp [h.count]
  group := by rw [State.putByte_partialGroup, h.group, ← leftover_append]
  output := by
    rw [State.putByte_taken, State.putByte_outq, ← List.append_assoc, h.output, State.byteOutput_eq_streamWords, h.group,
      List.append_assoc, ← streamWords_append]

/-! ## Steps and runs without CLEAR or RESET -/

theorem exec_inByte_of_ready {d : Byte} (live : s.live = true) (ready : s.inReady = true) :
    exec (.inByte d) s = .next (s.putByte d) :=
  State.acceptInput_next.2 ⟨live, .inl ⟨ready, rfl⟩⟩

/-- Such a step keeps the block live, and leaves the tokens on offer but for the first of them. -/
theorem transfer_step_host (live : s.live = true) (quiet : s.nextTurn.any Turn.isEvent = false) (h : step s = .next t) :
    t.live = true ∧ (t.inTokens = s.inTokens ∨ ∃ tok, s.inTokens = tok :: t.inTokens) := by
  obtain ⟨-, rfl⟩ | ⟨ws, u, ts, -, -, idle | take | offer⟩ := transfer_step_cases live quiet h
  · exact ⟨live, .inl rfl⟩
  · obtain ⟨-, -, rfl⟩ := idle
    exact ⟨live, .inl rfl⟩
  · obtain ⟨-, o, q, -, rfl⟩ := take
    exact ⟨live, .inl rfl⟩
  · obtain ⟨-, tok, rest, offered, -, hexec⟩ := offer
    obtain ⟨-, inTokens, isLive, -, -⟩ := exec_decodeIn_host hexec
    exact ⟨isLive.trans live, .inr ⟨tok, offered.trans (by rw [inTokens])⟩⟩

/-- Such a run puts no token on offer. -/
theorem transferRun_inTokens_length_le {n : Nat} (live : s.live = true) (h : transferRun n s = some t) :
    t.inTokens.length ≤ s.inTokens.length := by
  induction n generalizing s with
  | zero => cases h; exact le_rfl
  | succ n ih =>
    obtain ⟨quiet, u, hstep, hrun⟩ := transferRun_succ.1 h
    obtain ⟨uLive, same | ⟨tok, shorter⟩⟩ := transfer_step_host live quiet hstep
    · exact same ▸ ih uLive hrun
    · exact (ih uLive hrun).trans (by simp [shorter])

/-- In the middle of a stream such a step accepts nothing, or the next byte of the stream, or, where the stream has no byte left
on offer, the token behind it. -/
theorem State.MidStream.transfer_step {rest : List InBits} (h : s.MidStream base x) (offered : s.inTokens = y.map byteToken ++ rest)
    (quiet : s.nextTurn.any Turn.isEvent = false) (hstep : step s = .next t) :
    (t.MidStream base x ∧ t.inTokens = s.inTokens) ∨
      (∃ d y', y = d :: y' ∧ t.MidStream base (x ++ [d]) ∧ t.inTokens = y'.map byteToken ++ rest) ∨
      (y = [] ∧ t.live = true ∧ t.inTokens.length < rest.length) := by
  obtain ⟨-, rfl⟩ | ⟨ws, u, ts, -, -, idle | take | offer⟩ := transfer_step_cases h.live quiet hstep
  · exact .inl ⟨h, rfl⟩
  · obtain ⟨-, -, rfl⟩ := idle
    exact .inl ⟨h.withHost _ _, rfl⟩
  · obtain ⟨-, o, q, hq, rfl⟩ := take
    have delivered := (h.deliver (State.outData_eq_some.2 ⟨q, hq⟩)).withHost s.inTokens (ws ++ ts)
    simp only [State.deliver, hq, List.tail_cons] at delivered
    exact .inl ⟨delivered, rfl⟩
  · obtain ⟨-, tok, others, hin, ready, hexec⟩ := offer
    have advanced := h.withHost others (ws ++ ts)
    cases y with
    | nil =>
      obtain ⟨-, inTokens, live, -, -⟩ := exec_decodeIn_host hexec
      refine .inr (.inr ⟨rfl, live.trans h.live, ?_⟩)
      have hrest : rest = tok :: others := offered.symm.trans hin
      simp [inTokens, hrest]
    | cons d y' =>
      obtain ⟨rfl, rfl⟩ : byteToken d = tok ∧ y'.map byteToken ++ rest = others := by
        simpa using offered.symm.trans hin
      rw [decodeIn_byteToken, exec_inByte_of_ready advanced.live ready] at hexec
      cases hexec
      exact .inr (.inl ⟨d, y', rfl, advanced.putByte d, by simp⟩)

/-- A run without CLEAR or RESET that accepts exactly the bytes `y` of a stream, whatever its schedule and the depth. -/
theorem State.MidStream.run {rest : List InBits} {n : Nat} (h : s.MidStream base x)
    (offered : s.inTokens = y.map byteToken ++ rest) (hrun : transferRun n s = some t) (accepted : t.inTokens = rest) :
    t.MidStream base (x ++ y) := by
  induction n generalizing s x y with
  | zero =>
    cases hrun
    obtain rfl : y = [] := by simpa [accepted] using offered
    simpa using h
  | succ n ih =>
    obtain ⟨quiet, u, hstep, hrun⟩ := transferRun_succ.1 hrun
    obtain ⟨hu, same⟩ | ⟨d, y', rfl, hu, remaining⟩ | ⟨-, live, past⟩ := h.transfer_step offered quiet hstep
    · exact ih hu (same.trans offered) hrun
    · simpa using ih hu remaining hrun
    · have shorter := transferRun_inTokens_length_le live hrun
      rw [accepted] at shorter
      omega

end Sys2Proof.Machine
end

section
/-! The serialised words of an output file (20_memory.md R37). -/

namespace Sys2Proof.Machine

/-- Each word before it takes four bytes of the file, so word `j` starts at byte `4j`. -/
theorem fileBytes_words_getElem? {ws : List Word32} {j k : Nat} {w : Word32} (hw : ws[j]? = some w) (hk : k < 4) :
    (fileBytes (ws.map .word))[4 * j + k]? = (wordBytes w)[k]? := by
  induction ws generalizing j with
  | nil => cases hw
  | cons v ws ih =>
    rw [List.map_cons, fileBytes]
    cases j with
    | zero =>
      obtain rfl : v = w := by simpa using hw
      rw [List.getElem?_append_left (by simpa [wordBytes] using hk)]
      simp
    | succ j =>
      have index : 4 * (j + 1) + k = (wordBytes v).length + (4 * j + k) := by simp [wordBytes]; omega
      rw [index, List.getElem?_append_right (by omega), Nat.add_sub_cancel_left]
      exact ih (by simpa using hw)

/-- A word is its four bytes, the first the least significant. -/
theorem toNat_eq_sum_of_bytes (w : Word32) :
    w.toNat = (w.extractLsb' 0 8).toNat + (w.extractLsb' 8 8).toNat * 2 ^ 8 + (w.extractLsb' 16 8).toNat * 2 ^ 16 +
      (w.extractLsb' 24 8).toNat * 2 ^ 24 := by
  have bound := w.isLt
  simp only [BitVec.extractLsb'_toNat, Nat.shiftRight_eq_div_pow]
  omega

end Sys2Proof.Machine
end

section
/-! The statements about the streams and the file (20_memory.md). -/

namespace Sys2Proof.Machine

/-- The conditions under which DECODE_GROUP fires, one by one (R75). -/
theorem State.holdsGroup_iff {s : State} {p : Packed24} :
    s.holdsGroup p = true ↔ s.phase = 2 ∧ s.asm0 = byteA p ∧ s.asm1 = byteB p := by
  simp [State.holdsGroup, and_assoc]

/-- The lanes of a triplet, sample 0 in the low one (R57). -/
theorem groupWords_triplet (h l : Raw12) : groupWords (triplet h l) = (sample l, sample h) := by
  rw [groupWords, unpackS0_triplet, unpackS1_triplet]

/-- Settles O38, by the transaction: a token that waits changes nothing, an accepted one joins at the tail, and a take moves the head of
the queue behind what was delivered. -/
theorem nothingIsReorderedOrLost : Obligations.NothingIsReorderedOrLost := by
  intro i s t notClear notReset h
  cases i with
  | inByte d =>
    cases exec_effect h with
    | waits _ low => simp [show ¬ s.inReady = true from low]
    | byte _ ready => simp [ready, State.byteOutput]
  | inEnd r =>
    cases exec_effect h with
    | waits _ low => simp [show ¬ s.inReady = true from low]
    | ended _ ready => simp [ready]
  | outWord w =>
    cases exec_effect h with
    | waits => simp
    | wordTaken _ head => simpa using State.deliver_taken_append_outq head
  | outEnd =>
    cases exec_effect h with
    | waits => simp
    | endTaken head => simpa using State.deliver_taken_append_outq head
  | clear => exact absurd rfl notClear
  | reset => exact absurd rfl notReset
  | decodeGroup h' l =>
    simp only [← State.holdsGroup_iff]
    obtain ⟨-, ⟨ready, rfl⟩ | ⟨low, rfl⟩⟩ := State.acceptInput_next.1 h
    · by_cases held : s.holdsGroup (triplet h' l) = true
      · simp [ready, held, groupWords_triplet]
      · simp [held]
    · simp [low]

/-- Settles O53: the start of a stream is in the middle of it, with no byte accepted, and a run keeps count of the bytes. -/
theorem phaseCountsTheBytes : Obligations.PhaseCountsTheBytes := by
  intro s t x rest n start offered hrun accepted
  have h : t.MidStream (s.taken ++ s.outq) x := start.midStream.run offered hrun accepted
  exact ⟨h.count, h.phase, h.output⟩

/-- Settles O60: the four bytes at `4j` are those of word `j`. -/
theorem wordsAreSerialisedLittleEndian : Obligations.WordsAreSerialisedLittleEndian := by
  intro ws j w hw
  have byte {k : Nat} (hk : k < 4) := fileBytes_words_getElem? hw hk
  exact ⟨_, _, _, _, byte (k := 0) (by decide), byte (k := 1) (by decide), byte (k := 2) (by decide),
    byte (k := 3) (by decide), toNat_eq_sum_of_bytes w⟩

end Sys2Proof.Machine
end

section
/-! The tokens of the ports (30_encoding.md R49 to R58): a kind bit in front of a payload, and how each is read. -/

namespace Sys2Proof.Machine

/-! ## A kind bit in front of a payload -/

variable {n : Nat}

theorem toNat_zero_append (x : BitVec n) : (0#1 ++ x).toNat = x.toNat := by
  rw [BitVec.toNat_append, ← Nat.shiftLeft_add_eq_or_of_lt x.isLt]
  simp

theorem toNat_one_append (x : BitVec n) : (1#1 ++ x).toNat = 2 ^ n + x.toNat := by
  rw [BitVec.toNat_append, ← Nat.shiftLeft_add_eq_or_of_lt x.isLt, BitVec.toNat_one Nat.one_pos, Nat.one_shiftLeft]

/-- Every token is one of the two kinds. -/
theorem kind_cases (t : BitVec (1 + n)) : (∃ x : BitVec n, t = 0#1 ++ x) ∨ ∃ x : BitVec n, t = 1#1 ++ x := by
  have split : t.extractLsb' n 1 ++ t.extractLsb' 0 n = t := by
    rw [BitVec.extractLsb'_append_extractLsb'_eq_extractLsb' (Nat.zero_add n).symm, BitVec.extractLsb'_eq_self]
  obtain kind | kind : t.extractLsb' n 1 = 0#1 ∨ t.extractLsb' n 1 = 1#1 := by
    generalize t.extractLsb' n 1 = k
    revert k; decide
  · exact .inl ⟨_, by rw [← kind, split]⟩
  · exact .inr ⟨_, by rw [← kind, split]⟩

/-! ## The input port (R50, R51) -/

/-- The IN_END token with the reserved field `r` (R51). -/
def endTokenWith (r : Byte) : InBits := 1#1 ++ r

/-- Whatever the reserved field holds, the token is read as IN_END. -/
theorem decodeIn_endTokenWith (r : Byte) : decodeIn (endTokenWith r) = .inEnd r := by revert r; decide

theorem byteToken_toNat (d : Byte) : (byteToken d).toNat = d.toNat := toNat_zero_append d

theorem endTokenWith_toNat (r : Byte) : (endTokenWith r).toNat = 256 + r.toNat := toNat_one_append r

theorem inToken_cases (t : InBits) : (∃ d, t = byteToken d) ∨ ∃ r, t = endTokenWith r := kind_cases (n := 8) t

/-! ## The output port (R52, R53, R54) -/

theorem outTokenBits_word_toNat (w : Word32) : (outTokenBits (.word w)).toNat = w.toNat := toNat_zero_append w

/-- Bit 32 alone makes an OUT_END (R54, log entry 7). -/
theorem decodeOut_one_append (x : Word32) : decodeOut (1#1 ++ x) = .outEnd := by
  have kind : (1#1 ++ x : BitVec (1 + 32)).getLsbD 32 = true := BitVec.getLsbD_append
  exact if_pos kind

theorem outToken_cases (t : OutBits) : (∃ w, t = outTokenBits (.word w)) ∨ ∃ x : Word32, t = 1#1 ++ x :=
  kind_cases (n := 32) t

/-- The consumer reads what the block drives for a queued token as the transaction that takes it (R52, R84, R85). -/
theorem decode_outTokenBits (o : OutToken) : decode (.outToken (outTokenBits o)) = .ok (takeInstr o) := by
  cases o with
  | word w => exact congrArg Except.ok (decodeOut_word w)
  | endMark => exact congrArg Except.ok decodeOut_end

/-! ## The triplet (R57) -/

theorem decodeTriplet_append (h l : Raw12) : decodeTriplet (h ++ l) = .decodeGroup h l := by
  rw [decodeTriplet, BitVec.extractLsb'_append_eq_right, BitVec.extractLsb'_append_eq_left]

/-- A triplet is its two lanes. -/
theorem triplet_lanes (p : Packed24) : p.extractLsb' 12 12 ++ p.extractLsb' 0 12 = p := by
  rw [BitVec.extractLsb'_append_extractLsb'_eq_extractLsb' (Nat.zero_add 12).symm, BitVec.extractLsb'_eq_self]

/-! ## Every instruction -/

/-- The decoder of each port reads an instruction back from its own token. -/
theorem decode_encode (i : Instr) : decode (encode i) = .ok i := by
  cases i with
  | inByte d => exact congrArg Except.ok (decodeIn_byteToken d)
  | inEnd r => exact congrArg Except.ok (decodeIn_endTokenWith r)
  | outWord w => exact decode_outTokenBits (.word w)
  | outEnd => exact decode_outTokenBits .endMark
  | clear | reset => rfl
  | decodeGroup h l => exact congrArg Except.ok (decodeTriplet_append h l)

/-! ## Table words (log entry 8): a word goes to the port of its width -/

variable {nbits : Nat}

theorem wireOfWord_inToken (low : 8 < nbits) (high : nbits ≤ 16) (t : InBits) :
    wireOfWord nbits t.toNat = .ok (.inToken t) := by
  simp [wireOfWord, Nat.not_le.2 low, high, t.isLt]

theorem wireOfWord_triplet (low : 16 < nbits) (high : nbits ≤ 24) (p : Packed24) :
    wireOfWord nbits p.toNat = .ok (.triplet p) := by
  simp [wireOfWord, Nat.not_le.2 low, high, p.isLt, show ¬ nbits ≤ 8 by omega]

theorem wireOfWord_outToken (low : 24 < nbits) (high : nbits ≤ 40) (t : OutBits) :
    wireOfWord nbits t.toNat = .ok (.outToken t) := by
  simp [wireOfWord, Nat.not_le.2 low, high, t.isLt, show ¬ nbits ≤ 8 by omega, show ¬ nbits ≤ 16 by omega]

theorem wireOfWord_control (high : nbits ≤ 8) : wireOfWord nbits 1 = .ok (.control false true) := by
  simp [wireOfWord, high]

/-- A word whose port carries the token of `i` is read as `i`. -/
theorem decodeTableWord_of_wire {w : Nat} {i : Instr} (h : wireOfWord nbits w = .ok (encode i)) :
    decodeTableWord nbits w = some i := by
  simp [decodeTableWord, h, decode_encode]

end Sys2Proof.Machine
end

section
/-! The statements about the encodings (30_encoding.md). -/

namespace Sys2Proof.Machine

/-- Settles O16, by the constructors of the instruction; each token is its kind bit, or its high lane, in front of the rest. -/
theorem decodeReadsBackEveryInstruction : Obligations.DecodeReadsBackEveryInstruction := by
  refine ⟨decode_encode, byteToken_toNat, endTokenWith_toNat, outTokenBits_word_toNat, rfl, fun h l => ?_⟩
  have lanes : (h ++ l).toNat = h.toNat <<< 12 + l.toNat := by
    rw [BitVec.toNat_append, Nat.shiftLeft_add_eq_or_of_lt l.isLt]
  rwa [Nat.shiftLeft_eq] at lanes

/-- Settles O17: at both widths of its row a word goes to the port of its instruction, CLEAR's to `rst` (log entry 8). -/
theorem tableWordsReadBack : Obligations.TableWordsReadBack := by
  intro i nbits width
  cases i with
  | inByte d | inEnd r =>
    simp only [tableWidth] at width
    exact decodeTableWord_of_wire (wireOfWord_inToken (by omega) (by omega) _)
  | outWord w =>
    simp only [tableWidth] at width
    exact decodeTableWord_of_wire (wireOfWord_outToken (by omega) (by omega) _)
  | outEnd =>
    simp only [tableWidth] at width
    exact decodeTableWord_of_wire (wireOfWord_outToken (by omega) (by omega) _)
  | clear | reset =>
    simp only [tableWidth] at width
    exact decodeTableWord_of_wire (i := .reset) (wireOfWord_control (by omega))
  | decodeGroup h l =>
    simp only [tableWidth] at width
    exact decodeTableWord_of_wire (wireOfWord_triplet (by omega) (by omega) _)

/-- Settles O18, by the kind of the token; a driven OUT_END has no bit but its kind bit. -/
theorem encodeReproducesTokens : Obligations.EncodeReproducesTokens := by
  refine ⟨fun t => ?_, fun p => congrArg Wire.triplet (triplet_lanes p), fun t driven => ?_⟩
  · obtain ⟨d, rfl⟩ | ⟨r, rfl⟩ := inToken_cases t
    · rw [decodeIn_byteToken]; rfl
    · rw [decodeIn_endTokenWith]; rfl
  · obtain ⟨w, rfl⟩ | ⟨x, rfl⟩ := outToken_cases t
    · rw [decodeOut_word]; rfl
    · have zero : x = 0#32 := by
        have value : (1#1 ++ x).toNat = 2 ^ 32 + x.toNat := toNat_one_append x
        apply BitVec.eq_of_toNat_eq
        simp only [BitVec.toNat_ofNat]; omega
      rw [decodeOut_one_append, zero]; rfl

/-- Settles O19, by the kind of the token: the values below the kind bit's are those without it. On the output port bit 32 alone is the
consumer's reading that R54 allows (log entry 7). -/
theorem kindBitAloneChooses : Obligations.KindBitAloneChooses := by
  refine ⟨fun t => ?_, fun t => ?_⟩
  · obtain ⟨d, rfl⟩ | ⟨r, rfl⟩ := inToken_cases t
    · rw [decode, decodeIn_byteToken, byteToken_toNat, if_pos d.isLt, BitVec.ofNat_toNat, BitVec.setWidth_eq]
    · rw [decode, decodeIn_endTokenWith, endTokenWith_toNat, if_neg (by omega), Nat.add_sub_cancel_left,
        BitVec.ofNat_toNat, BitVec.setWidth_eq]
  · obtain ⟨w, rfl⟩ | ⟨x, rfl⟩ := outToken_cases t
    · rw [decode, decodeOut_word, outTokenBits_word_toNat, if_pos w.isLt, BitVec.ofNat_toNat, BitVec.setWidth_eq]
    · have value : (1#1 ++ x).toNat = 2 ^ 32 + x.toNat := toNat_one_append x
      rw [decode, decodeOut_one_append, if_neg (by omega)]

/-- Settles O20: the decoders evaluated on the written-out tokens. -/
theorem writtenOutTokensDecode : Obligations.WrittenOutTokensDecode := by
  unfold Obligations.WrittenOutTokensDecode
  decide

/-- Settles O21, by the two kinds of output token. -/
theorem outputTokensAreEncoded : Obligations.OutputTokensAreEncoded :=
  ⟨fun w => ⟨outTokenBits_word_toNat w, decode_outTokenBits (.word w)⟩, rfl, decode_outTokenBits .endMark⟩

end Sys2Proof.Machine
end

section
/-! One step of each agent, from the list of turns (00_scope.md R11, R12; 30_encoding.md R55, R61, R63): the agent's turn is the earliest
that does not wait. -/

namespace Sys2Proof.Machine

variable {s t : State} {ws ts : List Turn} {i : Instr}

/-! ## The producer -/

/-- The producer does not wait before the first RESET or while `in_ready` is high. -/
theorem producer_acts_of_letIn (letIn : s.live = false ∨ s.inReady = true) : s.waits .producer = false := by
  obtain h | h := letIn <;> simp [State.waits, h]

theorem step_producer {tok : InBits} {rest : List InBits} (turns : s.turns = ws ++ .producer :: ts)
    (waiting : ∀ w ∈ ws, s.waits w = true) (offered : s.inTokens = tok :: rest)
    (letIn : s.live = false ∨ s.inReady = true) :
    step s = exec (decodeIn tok) { s with turns := ws ++ ts, inTokens := rest } := by
  have acts := producer_acts_of_letIn letIn
  rw [step, fetch_producer (nextTurn_eq_some turns waiting acts) offered, advance_eq turns waiting acts]
  simp [offered]

/-- With the producer's turn the first in the list nobody is passed over. -/
theorem step_producer_first {tok : InBits} {rest : List InBits} (turns : s.turns = .producer :: ts)
    (offered : s.inTokens = tok :: rest) (letIn : s.live = false ∨ s.inReady = true) :
    step s = exec (decodeIn tok) { s with turns := ts, inTokens := rest } :=
  step_producer (ws := []) turns (List.forall_mem_nil _) offered letIn

theorem step_producer_silent (turns : s.turns = ws ++ .producer :: ts) (waiting : ∀ w ∈ ws, s.waits w = true)
    (silent : s.inTokens = []) : step s = .next { s with turns := ws ++ ts } := by
  have acts : s.waits .producer = false := by simp [State.waits, silent]
  rw [step, fetch_producer_silent (nextTurn_eq_some turns waiting acts) silent, advance_eq turns waiting acts]
  simp [silent]

/-! ## The consumer -/

theorem step_consumer {o : OutToken} {q : List OutToken} (turns : s.turns = ws ++ .consumer :: ts)
    (waiting : ∀ w ∈ ws, s.waits w = true) (queue : s.outq = o :: q) :
    step s = exec (takeInstr o) { s with turns := ws ++ ts } := by
  have acts : s.waits .consumer = false := by simp [State.waits, queue]
  rw [step, fetch_consumer (nextTurn_eq_some turns waiting acts) queue, advance_eq turns waiting acts]
  rfl

/-- In a live block that step delivers the head of the queue (R84, R85). -/
theorem step_consumer_of_live {o : OutToken} {q : List OutToken} (live : s.live = true) (turns : s.turns = ws ++ .consumer :: ts)
    (waiting : ∀ w ∈ ws, s.waits w = true) (queue : s.outq = o :: q) :
    step s = .next { s with turns := ws ++ ts, outq := q, taken := s.taken ++ [o] } := by
  rw [step_consumer turns waiting queue, exec_takeInstr]
  refine State.giveOutput_next.2 ⟨live, .inl ⟨State.outData_eq_some.2 ⟨q, queue⟩, ?_⟩⟩
  simp [State.deliver, queue]

/-- As many turns of the consumer as there are queued tokens deliver them all, in order. -/
theorem runSteps_take_all {q : List OutToken} (live : s.live = true) (queue : s.outq = q)
    (turns : s.turns = List.replicate q.length .consumer ++ ts) :
    runSteps q.length s = .next { s with turns := ts, outq := [], taken := s.taken ++ q } := by
  induction q generalizing s with
  | nil => cases s; simp_all [runSteps]
  | cons o q ih =>
    have take := step_consumer_of_live (ws := []) live turns (List.forall_mem_nil _) queue
    rw [List.length_cons, runSteps, take]
    simpa using ih (s := { s with turns := List.replicate q.length .consumer ++ ts, outq := q, taken := s.taken ++ [o] })
      live rfl rfl

/-- No transaction touches the turns. -/
theorem exec_turns (h : exec i s = .next t) : t.turns = s.turns := by
  cases exec_effect h <;> simp

/-- From an empty queue no transaction delivers anything. -/
theorem exec_taken_of_outq_nil (h : exec i s = .next t) (empty : s.outq = []) : t.taken = s.taken := by
  cases exec_effect h with
  | wordTaken w head => simp [State.outData, empty] at head
  | endTaken head => simp [State.outData, empty] at head
  | _ => simp

/-- Whatever a step runs, the turns it leaves are those the host's side keeps. -/
theorem step_turns (h : step s = .next t) : t.turns = s.advance.turns := by
  obtain ⟨-, rfl⟩ | ⟨i, -, hexec⟩ := step_cases h
  · rfl
  · exact exec_turns hexec

theorem step_taken_of_outq_nil (h : step s = .next t) (empty : s.outq = []) : t.taken = s.taken := by
  obtain ⟨-, rfl⟩ | ⟨i, -, hexec⟩ := step_cases h
  · rfl
  · exact exec_taken_of_outq_nil (s := s.advance) hexec empty

/-- A step takes no turn of an agent that waits (R94, R100). -/
theorem step_keeps_waiting_turns {u : Turn} (h : step s = .next t) (waiting : s.waits u = true) :
    t.turns.count u = s.turns.count u := by
  rw [step_turns h]
  obtain all | ⟨ws, v, ts, turns, before, acts, -⟩ := nextTurn_cases s
  · rw [State.advance_turns, List.eraseP_of_forall_not fun w hm => by simp [all w hm]]
  · have other : v ≠ u := by rintro rfl; simp [waiting] at acts
    rw [advance_turns_eq turns before acts, turns, List.count_append, List.count_append, List.count_cons_of_ne other]

/-- Before the first RESET the consumer's turn faults, whatever the queue lists (R99, log entry 5). -/
theorem step_consumer_faults (turns : s.turns = .consumer :: ts) (unreset : s.live = false) :
    step s = .fault .notReset := by
  have acts : s.waits .consumer = false := by simp [State.waits, unreset]
  have next := nextTurn_eq_some (ws := []) turns (List.forall_mem_nil _) acts
  obtain ⟨o, fetched⟩ : ∃ o, s.fetch = some (takeInstr o) := by
    cases queue : s.outq with
    | nil => exact ⟨.endMark, fetch_consumer_empty next queue⟩
    | cons o q => exact ⟨o, fetch_consumer next queue⟩
  rw [step, fetched]
  exact (exec_takeInstr o _).trans (State.whenLive_of_not_live unreset)

/-! ## The controller -/

theorem step_controller {c r : Bool} (turns : s.turns = ws ++ .controller c r :: ts)
    (waiting : ∀ w ∈ ws, s.waits w = true) :
    step s =
      if r then exec .reset { s with turns := ws ++ ts }
      else if c then exec .clear { s with turns := ws ++ ts }
      else .next { s with turns := ws ++ ts } := by
  rw [step, fetch_controller (nextTurn_eq_some turns waiting rfl), advance_eq turns waiting rfl]
  cases r <;> cases c <;> rfl

end Sys2Proof.Machine
end

section
/-! The statements about the agents' steps (30_encoding.md R51, R55, R61, R63). -/

namespace Sys2Proof.Machine

/-- Settles O50: the waiting producer's turn is passed over for the consumer's, and is the earliest that does not wait once a take has
made room; with everything taken there is room at every legal depth. -/
theorem takingEverythingEndsTheWait : Obligations.TakingEverythingEndsTheWait := by
  refine ⟨?oneTake, ?allTaken⟩
  case oneTake =>
    intro s ts o q tok rest i live low turns queue offered decoded
    cases decoded
    have waiting : ∀ w ∈ [Turn.producer], s.waits w = true := by simp [State.waits, live, offered, low]
    refine ⟨_, step_consumer_of_live (ws := [.producer]) live turns waiting queue, rfl, fun ready => ?_⟩
    exact step_producer_first rfl offered (.inr ready)
  case allTaken =>
    intro s ts tok rest i live legal turns offered decoded
    cases decoded
    have ready : { s with turns := .producer :: ts, outq := [], taken := s.taken ++ s.outq }.inReady = true :=
      State.inReady_iff.2 (by simpa using legal)
    refine ⟨_, runSteps_take_all live rfl turns, rfl, rfl, ready, ?_⟩
    exact step_producer_first rfl offered (.inr ready)

/-- Settles O22: no arm reads the reserved field, and a token with bit 8 set is read as IN_END. -/
theorem reservedBitsOfEndAreIgnored : Obligations.ReservedBitsOfEndAreIgnored := by
  refine ⟨fun _ _ _ => rfl, fun t t' rest ts s kind kind' live ready => ?_⟩
  have run {tok : InBits} (isEnd : tok.getLsbD 8 = true) :
      step { s with turns := .producer :: ts, inTokens := tok :: rest } =
        exec (.inEnd 0) { s with turns := ts, inTokens := rest } := by
    have token : decodeIn tok = .inEnd (tok.extractLsb' 0 8) := if_pos isEnd
    rw [step_producer_first (s := { s with turns := .producer :: ts, inTokens := tok :: rest }) rfl rfl (.inr ready), token]
    rfl
  rw [run kind, run kind']

/-- Settles O39: the producer's turn is the next one, with a token that is let in or with none. -/
theorem producerStepRunsTheOfferedToken : Obligations.ProducerStepRunsTheOfferedToken := by
  refine ⟨fun s ws ts tok rest i turns waiting offered letIn decoded => ?_, fun s ws ts => step_producer_silent⟩
  cases decoded
  exact step_producer turns waiting offered letIn

/-- Settles O40: the head of the queue is fetched; with none a live block's consumer waits, so its turn is not the one taken. -/
theorem consumerStepRunsTheHeadToken : Obligations.ConsumerStepRunsTheHeadToken := by
  refine ⟨?head, ?empty, fun s ts => step_consumer_faults⟩
  case head =>
    intro s ws ts o q i turns waiting queue decoded
    obtain rfl : takeInstr o = i := Except.ok.inj ((decode_outTokenBits o).symm.trans decoded)
    exact step_consumer turns waiting queue
  case empty =>
    intro s t live empty h
    exact ⟨step_keeps_waiting_turns h (by simp [State.waits, live, empty]), step_taken_of_outq_nil h empty⟩

/-- Settles O41: the controller never waits, and its lines choose the event. -/
theorem controllerStepRunsItsLines : Obligations.ControllerStepRunsItsLines := by
  intro s ws ts c r turns waiting
  rw [step_controller turns waiting]
  refine ⟨?reset, ?clear, ?idle⟩
  case reset => rintro rfl; rfl
  case clear => rintro rfl rfl; rfl
  case idle => rintro rfl rfl; rfl

end Sys2Proof.Machine
end

section
/-! The words of binary32 as numbers (30_encoding.md R56), and R70's rounding of a quotient. -/

namespace Sys2Proof.Machine

/-! ## The fields of an assembled word -/

/-- The `sign` field of an assembled word (R56). -/
theorem f32Sign_f32Bits (sign : Bool) (exp frac : Nat) : f32Sign (f32Bits sign exp frac) = sign := by
  have h : (f32Bits sign exp frac).getLsbD 31 = ((BitVec.ofBool sign ++ BitVec.ofNat 8 exp) : BitVec 9).getLsbD 8 := by
    rw [f32Bits, BitVec.getLsbD_append]; rfl
  rw [f32Sign, h, BitVec.getLsbD_append]
  simp

/-- The `frac` field of an assembled word (R56). -/
theorem f32Frac_f32Bits (sign : Bool) (exp frac : Nat) : f32Frac (f32Bits sign exp frac) = frac % 2 ^ 23 := by
  have field : (f32Bits sign exp frac).extractLsb' 0 23 = BitVec.ofNat 23 frac := BitVec.extractLsb'_append_eq_right
  rw [f32Frac, field, BitVec.toNat_ofNat]

/-- The other sign is the other value of bit 31 (R56). -/
theorem f32Bits_not (neg : Bool) (exp frac : Nat) : f32Bits (!neg) exp frac = f32Bits neg exp frac ^^^ 0x80000000 := by
  have one : (0x80000000 : Word32) = BitVec.ofBool true ++ 0#8 ++ 0#23 := by decide
  rw [one, f32Bits, f32Bits, BitVec.xor_append, BitVec.xor_append]
  cases neg <;> simp

/-! ## Powers of two as scales -/

theorem abs_mul_two_pow (x : ℚ) (k : Nat) : |x * 2 ^ k| = |x| * 2 ^ k := by
  rw [abs_mul, abs_of_pos (a := (2 : ℚ) ^ k) (pow_pos two_pos k)]

/-- R56's `2^-150`, split at the exponent of the unit `2^-k`. -/
theorem div_two_pow_150 (x : ℚ) {k : Nat} (hk : k < 150) : x / (2 ^ 150 : Nat) * 2 ^ k = x / 2 ^ (150 - k) := by
  rw [← Nat.sub_add_cancel hk.le, Nat.add_sub_cancel, pow_add]
  push_cast
  field_simp

/-! ## The value of a word -/

/-- The sign a sign bit stands for (R56). -/
def signOf (neg : Bool) : ℤ := if neg then -1 else 1

theorem signOf_mul_natAbs (i : ℤ) : (signOf (i < 0) * i.natAbs : ℚ) = i := by
  have whole : signOf (i < 0) * i.natAbs = i := by
    by_cases neg : i < 0
    · simp only [signOf, neg, decide_true, if_true]; omega
    · simp only [signOf, neg, decide_false, Bool.false_eq_true, if_false]; omega
  rw [← Int.cast_natCast, ← Int.cast_mul, whole]

theorem abs_signOf_mul (neg : Bool) (x : ℚ) : |signOf neg * x| = |x| := by
  cases neg <;> simp [signOf]

/-- A normal significand `q` with the exponent of the unit `2^-k` is worth `± q / 2^k` (R56). -/
theorem f32Value_f32Bits {neg : Bool} {q k : Nat} (low : 2 ^ 23 ≤ q) (high : q < 2 ^ 24) (hk : k < 150) :
    f32Value (f32Bits neg (150 - k) (q - 2 ^ 23)) = some (signOf neg * (q / 2 ^ k) : ℚ) := by
  have exp : f32Exp (f32Bits neg (150 - k) (q - 2 ^ 23)) = 150 - k := by rw [f32Exp_f32Bits]; omega
  have frac : 2 ^ 23 + f32Frac (f32Bits neg (150 - k) (q - 2 ^ 23)) = q := by rw [f32Frac_f32Bits]; omega
  have notZero : ¬ (150 - k = 0 ∧ f32Frac (f32Bits neg (150 - k) (q - 2 ^ 23)) = 0) := by omega
  have normal : 1 ≤ 150 - k ∧ 150 - k ≤ 254 := by omega
  have mag : ((q * 2 ^ (150 - k) : Nat) : ℚ) / (2 ^ 150 : Nat) = q / 2 ^ k := by
    rw [eq_div_iff (pow_pos two_pos k).ne', div_two_pow_150 _ hk]
    push_cast
    exact mul_div_cancel_right₀ _ (pow_pos two_pos _).ne'
  simp only [f32Value, exp, frac, f32Sign_f32Bits, notZero, normal, if_false, and_self, if_true, mag]
  cases neg <;> simp [signOf]

/-- Every word that has a value has the magnitude of a 24-bit significand (R56). -/
theorem abs_of_f32Value {w : Word32} {z : ℚ} (hz : f32Value w = some z) :
    ∃ n e : Nat, n < 2 ^ 24 ∧ |z| = (n * 2 ^ e : Nat) / (2 ^ 150 : Nat) := by
  have frac : f32Frac w < 2 ^ 23 := (w.extractLsb' 0 23).isLt
  unfold f32Value at hz
  split at hz
  case isTrue zero => cases hz; exact ⟨0, 0, by norm_num, by simp⟩
  case isFalse nonzero =>
    split at hz
    case isFalse special => cases hz
    case isTrue normal =>
      have mag : (0 : ℚ) ≤ ((2 ^ 23 + f32Frac w) * 2 ^ f32Exp w : Nat) / (2 ^ 150 : Nat) := by positivity
      refine ⟨2 ^ 23 + f32Frac w, f32Exp w, by omega, ?_⟩
      rw [← abs_of_nonneg mag, ← Option.some.inj hz]
      split
      · exact abs_neg _
      · rfl

/-- From magnitude `2^23 * 2^-k` on, every value of a word is a multiple of `2^-k`. -/
theorem f32Value_grid {w : Word32} {z : ℚ} (hz : f32Value w = some z) {k : Nat} (hk : k < 150) :
    |z * 2 ^ k| < 2 ^ 23 ∨ ∃ i : ℤ, z * 2 ^ k = i := by
  obtain ⟨n, e, hn, mag⟩ := abs_of_f32Value hz
  have scaled : |z * 2 ^ k| = n * 2 ^ e / 2 ^ (150 - k) := by
    rw [abs_mul_two_pow, mag, div_two_pow_150 _ hk]
    push_cast
    rfl
  by_cases fine : e < 150 - k
  · left
    have step : (2 : ℚ) ^ e * 2 ≤ 2 ^ (150 - k) := by
      rw [← pow_succ]; exact pow_le_pow_right₀ one_le_two fine
    have hn' : (n : ℚ) < 2 ^ 24 := by exact_mod_cast hn
    rw [scaled, div_lt_iff₀ (pow_pos two_pos _)]
    nlinarith [pow_pos (two_pos (α := ℚ)) e]
  · right
    have whole : |z * 2 ^ k| = ((n * 2 ^ (e - (150 - k)) : ℤ) : ℚ) := by
      rw [scaled, div_eq_iff (pow_pos two_pos _).ne']
      push_cast
      rw [mul_assoc, ← pow_add, Nat.sub_add_cancel (by omega)]
    obtain h | h := abs_choice (z * 2 ^ k)
    · exact ⟨_, h ▸ whole⟩
    · exact ⟨-(n * 2 ^ (e - (150 - k))), by push_cast at whole ⊢; linarith⟩

/-! ## The integer nearest to a quotient -/

/-- An integer nearer than 1/2 to `x` is nearer to it than every other integer, and than everything that is nearer to 0 than some integer
`b` which `x` does not come below. -/
theorem abs_sub_lt_of_near {x z : ℚ} {q : ℤ} {b : ℕ} (near : |(q : ℚ) - x| < 1 / 2) (low : b ≤ |x|) (other : z ≠ q)
    (grid : |z| < b ∨ ∃ i : ℤ, z = i) : |(q : ℚ) - x| < |z - x| := by
  have integer (j : ℤ) (hj : j ≠ q) : |(q : ℚ) - x| < |j - x| := by
    have apart : (1 : ℚ) ≤ |(j : ℚ) - q| := by exact_mod_cast Int.one_le_abs (sub_ne_zero.2 hj)
    linarith [abs_sub_le (j : ℚ) x q, abs_sub_comm x (q : ℚ)]
  obtain small | ⟨i, rfl⟩ := grid
  · obtain ⟨j, hj⟩ : ∃ j : ℤ, |(j : ℚ) - x| = |x| - b := by
      obtain h | h := le_total 0 x
      · rw [abs_of_nonneg h] at low ⊢
        exact ⟨b, by push_cast; rw [abs_of_nonpos (by linarith)]; ring⟩
      · rw [abs_of_nonpos h] at low ⊢
        exact ⟨-b, by push_cast; rw [abs_of_nonneg (by linarith)]; ring⟩
    have nearest : |(q : ℚ) - x| ≤ |x| - b := by
      by_cases h : j = q
      · rw [← h, hj]
      · exact hj ▸ (integer j h).le
    linarith [abs_sub_abs_le_abs_sub x z, abs_sub_comm x z]
  · exact integer i (by exact_mod_cast other)

/-- The integer nearest to `n / den`, ties to even: the rounding step of `roundSig`. -/
def nearestDiv (n den : Nat) : Nat :=
  if den < 2 * (n % den) ∨ (2 * (n % den) = den ∧ n / den % 2 = 1) then n / den + 1 else n / den

theorem nearestDiv_error {n den : Nat} (hden : 0 < den) : |(nearestDiv n den : ℚ) - n / den| ≤ 1 / 2 := by
  have division : den * (n / den) + n % den = n := Nat.div_add_mod n den
  have remainder : n % den < den := Nat.mod_lt n hden
  have bound : 2 * (den * nearestDiv n den) ≤ 2 * n + den ∧ 2 * n ≤ 2 * (den * nearestDiv n den) + den := by
    unfold nearestDiv
    split
    · rw [mul_add]; omega
    · omega
  have hden' : (0 : ℚ) < den := by exact_mod_cast hden
  obtain ⟨above, below⟩ := bound
  have above' : (2 * (den * nearestDiv n den) : ℚ) ≤ 2 * n + den := by exact_mod_cast above
  have below' : (2 * n : ℚ) ≤ 2 * (den * nearestDiv n den) + den := by exact_mod_cast below
  rw [show (nearestDiv n den : ℚ) - n / den = (den * nearestDiv n den - n) / den by field_simp, abs_div,
    abs_of_pos hden', div_le_iff₀ hden', abs_le]
  constructor <;> linarith

theorem nearestDiv_eq_of_near {n den q : Nat} (hden : 0 < den) (near : |(n / den : ℚ) - q| < 1 / 2) :
    nearestDiv n den = q := by
  have apart : |(nearestDiv n den : ℚ) - q| < 1 := by
    linarith [abs_sub_le (nearestDiv n den : ℚ) (n / den) q, nearestDiv_error (n := n) hden]
  have apart' : |(nearestDiv n den : ℤ) - q| < 1 := by exact_mod_cast apart
  have := Int.abs_lt_one_iff.1 apart'
  omega

/-! ## The shift of a significand -/

/-- A shift that reaches `a` is no smaller than one that stays below `2a`; so within a factor of 2 there is one shift at most. -/
theorem le_of_bracket {a n j k : Nat} (reached : a ≤ n * 2 ^ j) (below : n * 2 ^ k < 2 * a) : k ≤ j := by
  by_contra h
  have step : n * (2 ^ j * 2) ≤ n * 2 ^ k :=
    Nat.mul_le_mul_left n (pow_succ 2 j ▸ Nat.pow_le_pow_right two_pos (Nat.lt_of_not_le h))
  rw [← mul_assoc] at step
  omega

/-- A search that starts low enough and may go far enough stops within a factor of 2 of its target. -/
theorem findShift_bracket {target num fuel start : Nat} (last : target ≤ num * 2 ^ (start + fuel))
    (first : num * 2 ^ start < 2 * target) :
    target ≤ num * 2 ^ findShift target num fuel start ∧ num * 2 ^ findShift target num fuel start < 2 * target := by
  obtain ⟨reached, low, least⟩ := findShift_spec last
  refine ⟨reached, ?_⟩
  obtain h | ⟨j, hj, hlow⟩ : findShift target num fuel start = start ∨ ∃ j, findShift target num fuel start = j + 1 ∧ start ≤ j :=
    (Nat.eq_or_lt_of_le low).imp Eq.symm fun h => ⟨findShift target num fuel start - 1, by omega, by omega⟩
  · rwa [h]
  · have below := least j hlow (by omega)
    rw [hj, pow_succ, ← mul_assoc]
    omega

/-- One shift at most is within that factor, so the search finds it. -/
theorem findShift_eq_of_bracket {target num fuel start k : Nat} (low : start ≤ k) (high : k ≤ start + fuel)
    (reached : target ≤ num * 2 ^ k) (below : num * 2 ^ k < 2 * target) : findShift target num fuel start = k := by
  have last : target ≤ num * 2 ^ (start + fuel) :=
    reached.trans (Nat.mul_le_mul_left num (Nat.pow_le_pow_right two_pos high))
  have first : num * 2 ^ start < 2 * target :=
    (Nat.mul_le_mul_left num (Nat.pow_le_pow_right two_pos low)).trans_lt below
  obtain ⟨reached', below'⟩ := findShift_bracket last first
  exact Nat.le_antisymm (le_of_bracket reached below') (le_of_bracket reached' below)

/-! ## Rounding to `p` significant bits -/

theorem roundSig_of_shift {p num den k : Nat} (hk : findShift (2 ^ (p - 1) * den) num 160 0 = k) :
    roundSig p num den =
      if nearestDiv (num * 2 ^ k) den = 2 ^ p then (2 ^ (p - 1), k - 1) else (nearestDiv (num * 2 ^ k) den, k) :=
  hk ▸ rfl

/-- Where an integer below `2^p` is nearer than 1/2 to the scaled quotient, that is the rounded significand. -/
theorem roundSig_eq_of_near {p num den q k : Nat} (hp : 0 < p) (hden : 0 < den) (hk : k ≤ 160) (hq : q < 2 ^ p)
    (low : 2 ^ (p - 1) ≤ (num / den : ℚ) * 2 ^ k) (near : |(num / den : ℚ) * 2 ^ k - q| < 1 / 2) :
    roundSig p num den = (q, k) := by
  have hden' : (0 : ℚ) < den := by exact_mod_cast hden
  have scaled : (num / den : ℚ) * 2 ^ k = (num * 2 ^ k : Nat) / den := by push_cast; ring
  rw [scaled] at low near
  have reached : 2 ^ (p - 1) * den ≤ num * 2 ^ k := by
    rw [le_div_iff₀ hden'] at low
    exact_mod_cast low
  have below : num * 2 ^ k < 2 * (2 ^ (p - 1) * den) := by
    have hq' : (q : ℚ) + 1 ≤ 2 * 2 ^ (p - 1) := by
      rw [← pow_succ', Nat.sub_add_cancel hp]
      exact_mod_cast hq
    have h : ((num * 2 ^ k : Nat) : ℚ) / den < 2 * 2 ^ (p - 1) := by linarith [(abs_lt.1 near).2]
    rw [div_lt_iff₀ hden', mul_assoc] at h
    exact_mod_cast h
  rw [roundSig_of_shift (findShift_eq_of_bracket k.zero_le (by omega) reached below), nearestDiv_eq_of_near hden near,
    if_neg hq.ne]

/-- The number `roundSig` stands for is the nearest integer at its shift, with or without the carry. -/
theorem roundSig_value {p num den k : Nat} (hp : 0 < p) (hk : findShift (2 ^ (p - 1) * den) num 160 0 = k) (positive : 0 < k) :
    ((roundSig p num den).1 / 2 ^ (roundSig p num den).2 : ℚ) = nearestDiv (num * 2 ^ k) den / 2 ^ k := by
  rw [roundSig_of_shift hk]
  split
  case isTrue carry =>
    obtain ⟨j, rfl⟩ := Nat.exists_eq_add_of_lt positive
    obtain ⟨i, rfl⟩ := Nat.exists_eq_add_of_lt hp
    simp only [zero_add, Nat.add_sub_cancel] at carry ⊢
    rw [carry]
    push_cast
    rw [pow_succ, pow_succ]
    field_simp
  case isFalse => rfl

/-- Rounding to `p` significant bits errs by at most one part in `2^p`. -/
theorem roundSig_relError {p num den : Nat} (hp : 0 < p) (hden : 0 < den) (last : 2 ^ (p - 1) * den ≤ num * 2 ^ 160)
    (first : num < 2 ^ (p - 1) * den) :
    |((roundSig p num den).1 / 2 ^ (roundSig p num den).2 : ℚ) - num / den| ≤ num / den / 2 ^ p := by
  have hden' : (0 : ℚ) < den := by exact_mod_cast hden
  obtain ⟨k, hk⟩ : ∃ k, findShift (2 ^ (p - 1) * den) num 160 0 = k := ⟨_, rfl⟩
  obtain ⟨reached, below⟩ := findShift_bracket (start := 0) (fuel := 160) (by simpa using last)
    (show num * 2 ^ 0 < 2 * (2 ^ (p - 1) * den) by omega)
  rw [hk] at reached below
  have positive : 0 < k := by
    rw [Nat.pos_iff_ne_zero]
    rintro rfl
    omega
  have halfUnit : (1 / 2 : ℚ) ≤ num / den * 2 ^ k / 2 ^ p := by
    have bracket : (2 : ℚ) ^ (p - 1) ≤ num / den * 2 ^ k := by
      rw [div_mul_eq_mul_div, le_div_iff₀ hden']
      exact_mod_cast reached
    have double : (2 : ℚ) ^ p = 2 ^ (p - 1) * 2 := by rw [← pow_succ, Nat.sub_add_cancel hp]
    rw [double, le_div_iff₀ (by positivity)]
    linarith
  have scaled : (num / den : ℚ) * 2 ^ k = (num * 2 ^ k : Nat) / den := by push_cast; ring
  refine le_of_mul_le_mul_right ?_ (pow_pos two_pos k)
  calc |((roundSig p num den).1 / 2 ^ (roundSig p num den).2 : ℚ) - num / den| * 2 ^ k
      = |nearestDiv (num * 2 ^ k) den - (num * 2 ^ k : Nat) / (den : ℚ)| := by
        rw [roundSig_value hp hk positive, ← abs_mul_two_pow, sub_mul, div_mul_cancel₀ _ (pow_pos two_pos k).ne', scaled]
    _ ≤ 1 / 2 := nearestDiv_error hden
    _ ≤ num / den / 2 ^ p * 2 ^ k := by rwa [div_mul_eq_mul_div]

/-- The binary32 word of a quotient (R70), from its shift and the integer near the scaled quotient. -/
theorem rne32_eq_of_near {neg : Bool} {num den q k : Nat} (hden : 0 < den) (hk : k ≤ 160) (hq : q < 2 ^ 24)
    (low : 2 ^ 23 ≤ (num / den : ℚ) * 2 ^ k) (near : |(num / den : ℚ) * 2 ^ k - q| < 1 / 2) :
    rne32 neg num den = f32Bits neg (150 - k) (q - 2 ^ 23) := by
  have nonzero : num ≠ 0 := by
    rintro rfl
    norm_num at low
  simp only [rne32, nonzero, if_false, roundSig_eq_of_near (p := 24) (by decide) hden hk hq low near]

end Sys2Proof.Machine
end

section
/-! The converter ITOF, NORM and I2F (40_datapath.md R69 to R73): R72's algorithm rounds the quotient `v / 32767`. -/

namespace Sys2Proof.Machine

/-! ## R72's shift and significand -/

theorem i2fSig_eq (m : Nat) : i2fSig m =
    if 2 * (m * 2 ^ i2fShift m % 32767) > 32767 then m * 2 ^ i2fShift m / 32767 + 1 else m * 2 ^ i2fShift m / 32767 := rfl

/-- R72 rounds to the nearest integer, and never from as far as half a unit: 32767 is odd. -/
theorem i2fSig_near (m : Nat) : |(m / 32767 : ℚ) * 2 ^ i2fShift m - i2fSig m| ≤ 1 / 2 - 1 / 65534 := by
  have bound : 2 * (m * 2 ^ i2fShift m) ≤ 65534 * i2fSig m + 32766 ∧ 65534 * i2fSig m ≤ 2 * (m * 2 ^ i2fShift m) + 32766 := by
    rw [i2fSig_eq]
    split <;> omega
  obtain ⟨above, below⟩ := bound
  have above' : (2 * (m * 2 ^ i2fShift m) : ℚ) ≤ 65534 * i2fSig m + 32766 := by exact_mod_cast above
  have below' : (65534 * i2fSig m : ℚ) ≤ 2 * (m * 2 ^ i2fShift m) + 32766 := by exact_mod_cast below
  rw [abs_le]
  constructor <;> linarith

section
variable {m : Nat} (hm : 1 ≤ m)
include hm

theorem i2fShift_le_38 : i2fShift m ≤ 38 := by
  by_contra h
  have := (i2fShift_spec hm).2.2 38 (by omega) (Nat.lt_of_not_le h)
  omega

theorem le_scaledQuotient : (2 : ℚ) ^ 23 ≤ m / 32767 * 2 ^ i2fShift m := by
  have reached : (2 ^ 23 * 32767 : ℚ) ≤ m * 2 ^ i2fShift m := by exact_mod_cast (i2fShift_spec hm).1
  linarith

theorem le_i2fSig : 2 ^ 23 ≤ i2fSig m := by
  obtain ⟨reached, -, -⟩ := i2fShift_spec hm
  have whole : 2 ^ 23 ≤ m * 2 ^ i2fShift m / 32767 := (Nat.le_div_iff_mul_le (by decide)).2 reached
  rw [i2fSig_eq]
  split <;> omega

/-- I2F errs by at most `2^-24`, half a unit at the least shift. -/
theorem i2f_error : |(i2fSig m / 2 ^ i2fShift m : ℚ) - m / 32767| ≤ 1 / 2 ^ 24 := by
  have unit : (2 : ℚ) ^ 23 ≤ 2 ^ i2fShift m := pow_le_pow_right₀ one_le_two (i2fShift_spec hm).2.1
  have near := i2fSig_near m
  refine le_of_mul_le_mul_right ?_ (pow_pos two_pos (i2fShift m))
  rw [← abs_mul_two_pow, sub_mul, div_mul_cancel₀ _ (pow_pos two_pos _).ne', abs_sub_comm]
  linarith

/-- The range of R73: the shift bounds the magnitude from below, the error from above. -/
theorem i2f_range (hmax : m ≤ 32768) :
    (1 / 2 ^ 15 : ℚ) ≤ i2fSig m / 2 ^ i2fShift m ∧ (i2fSig m / 2 ^ i2fShift m : ℚ) ≤ 1.0000306 := by
  constructor
  · have sig : (2 ^ 23 : ℚ) ≤ i2fSig m := by exact_mod_cast le_i2fSig hm
    have shift : (2 : ℚ) ^ i2fShift m ≤ 2 ^ 38 := pow_le_pow_right₀ one_le_two (i2fShift_le_38 hm)
    rw [le_div_iff₀ (pow_pos two_pos _)]
    linarith
  · have hmax' : (m : ℚ) ≤ 32768 := by exact_mod_cast hmax
    linarith [abs_le.1 (i2f_error hm)]

end

/-! ## I2F as a word and as a number -/

/-- The magnitude of a nonzero int16 is one R72 takes. -/
theorem natAbs_toInt_bounds {v : Fixed16} (hv : v ≠ 0) : 1 ≤ v.toInt.natAbs ∧ v.toInt.natAbs ≤ 32768 := by
  have nonzero : v.toInt ≠ 0 := fun h => hv (BitVec.eq_of_toInt_eq h)
  have low := BitVec.le_toInt v
  have high := BitVec.toInt_lt (x := v)
  omega

/-- I2F of a nonzero operand: R72 without its carry branch. -/
theorem i2fBits_of_ne_zero {v : Fixed16} (hv : v ≠ 0) :
    i2fBits v = f32Bits (v.toInt < 0) (150 - i2fShift v.toInt.natAbs) (i2fSig v.toInt.natAbs - 2 ^ 23) := by
  obtain ⟨hm, hmax⟩ := natAbs_toInt_bounds hv
  simp only [i2fBits, hv, (i2fSig_lt hm hmax).ne, if_false]

/-- The exponents of R72 and R73. -/
theorem f32Exp_i2fBits_bounds {v : Fixed16} (hv : v ≠ 0) : 112 ≤ f32Exp (i2fBits v) ∧ f32Exp (i2fBits v) ≤ 127 := by
  obtain ⟨hm, -⟩ := natAbs_toInt_bounds hv
  have low := (i2fShift_spec hm).2.1
  have high := i2fShift_le_38 hm
  rw [f32Exp_i2fBits hv]
  omega

theorem f32Value_i2fBits {v : Fixed16} (hv : v ≠ 0) :
    f32Value (i2fBits v) = some (signOf (v.toInt < 0) * (i2fSig v.toInt.natAbs / 2 ^ i2fShift v.toInt.natAbs) : ℚ) := by
  obtain ⟨hm, hmax⟩ := natAbs_toInt_bounds hv
  have := i2fShift_le_38 hm
  rw [i2fBits_of_ne_zero hv, f32Value_f32Bits (le_i2fSig hm) (i2fSig_lt hm hmax) (by omega)]

/-- The exact quotient as sign and magnitude. -/
theorem toInt_div_divisor (v : Fixed16) :
    (v.toInt : ℚ) / 32767 = signOf (v.toInt < 0) * (v.toInt.natAbs / 32767) := by
  rw [← mul_div_assoc, signOf_mul_natAbs]

/-- I2F has a value, and it is within `2^-24` of the exact quotient. -/
theorem i2fBits_value (v : Fixed16) :
    ∃ y : ℚ, f32Value (i2fBits v) = some y ∧ |y - (v.toInt : ℚ) / 32767| ≤ 1 / 2 ^ 24 := by
  by_cases hv : v = 0
  · subst hv
    exact ⟨0, rfl, by simp⟩
  · obtain ⟨hm, -⟩ := natAbs_toInt_bounds hv
    refine ⟨_, f32Value_i2fBits hv, ?_⟩
    rw [toInt_div_divisor, ← mul_sub, abs_signOf_mul]
    exact i2f_error hm

/-- In units of its last place I2F's value is an integer nearer than 1/2 to the exact quotient, which has a full significand. -/
theorem exists_scaled_i2fBits {v : Fixed16} (hv : v ≠ 0) :
    ∃ (y : ℚ) (k : Nat) (q : ℤ), f32Value (i2fBits v) = some y ∧ k < 150 ∧ y * 2 ^ k = q ∧
      2 ^ 23 ≤ |(v.toInt : ℚ) / 32767 * 2 ^ k| ∧ |q - (v.toInt : ℚ) / 32767 * 2 ^ k| < 1 / 2 := by
  obtain ⟨hm, -⟩ := natAbs_toInt_bounds hv
  have range := i2fShift_le_38 hm
  refine ⟨_, i2fShift v.toInt.natAbs, signOf (v.toInt < 0) * i2fSig v.toInt.natAbs, f32Value_i2fBits hv, by omega, ?_, ?_, ?_⟩
  · push_cast
    rw [mul_assoc, div_mul_cancel₀ _ (pow_pos two_pos _).ne']
  · rw [toInt_div_divisor, mul_assoc, abs_signOf_mul]
    exact (le_scaledQuotient hm).trans (le_abs_self _)
  · push_cast
    rw [toInt_div_divisor, mul_assoc, ← mul_sub, abs_signOf_mul, abs_sub_comm]
    exact (i2fSig_near _).trans_lt (by norm_num)

/-! ## The order of I2F's values (R73) -/

/-- Neighbouring quotients are 1/32767 apart, and I2F errs by less than half of that. -/
theorem i2fBits_values_lt {v v' : Fixed16} (h : v.toInt < v'.toInt) :
    ∃ y y' : ℚ, f32Value (i2fBits v) = some y ∧ f32Value (i2fBits v') = some y' ∧ y < y' := by
  obtain ⟨y, hy, near⟩ := i2fBits_value v
  obtain ⟨y', hy', near'⟩ := i2fBits_value v'
  refine ⟨y, y', hy, hy', ?_⟩
  have apart : (v.toInt + 1 : ℚ) ≤ v'.toInt := by exact_mod_cast h
  linarith [abs_le.1 near, abs_le.1 near']

theorem i2fBits_values_le {v v' : Fixed16} {y y' : ℚ} (h : v.toInt ≤ v'.toInt) (hy : f32Value (i2fBits v) = some y)
    (hy' : f32Value (i2fBits v') = some y') : y ≤ y' := by
  obtain eq | lt := h.eq_or_lt
  · obtain rfl := BitVec.eq_of_toInt_eq eq
    exact (Option.some.inj (hy.symm.trans hy')).le
  · obtain ⟨z, z', hz, hz', less⟩ := i2fBits_values_lt lt
    cases hy.symm.trans hz
    cases hy'.symm.trans hz'
    exact less.le

theorem i2fBits_ne_of_lt {v v' : Fixed16} (h : v.toInt < v'.toInt) : i2fBits v ≠ i2fBits v' := by
  obtain ⟨y, y', hy, hy', less⟩ := i2fBits_values_lt h
  intro same
  rw [same] at hy
  exact less.ne (Option.some.inj (hy.symm.trans hy'))

/-! ## ITOF and NORM (R69, R70) -/

/-- A magnitude of int16 shifts up to a full significand, the shift found by search. -/
theorem exists_normal_shift {m : Nat} (hm : 1 ≤ m) (hmax : m ≤ 32768) :
    ∃ k, 8 ≤ k ∧ k ≤ 23 ∧ 2 ^ 23 ≤ m * 2 ^ k ∧ m * 2 ^ k < 2 ^ 24 := by
  obtain ⟨reached, low, -⟩ := findShift_spec (show 2 ^ 23 ≤ m * 2 ^ (8 + 15) by omega)
  obtain ⟨-, below⟩ := findShift_bracket (show 2 ^ 23 ≤ m * 2 ^ (8 + 15) by omega) (show m * 2 ^ 8 < 2 * 2 ^ 23 by omega)
  exact ⟨_, low, le_of_bracket (show 2 ^ 23 ≤ m * 2 ^ 23 by omega) below, reached, below⟩

/-- ITOF of a nonzero operand: its magnitude shifted up to a full significand, with nothing rounded. -/
theorem itof_of_ne_zero {v : Fixed16} (hv : v ≠ 0) :
    ∃ k, 8 ≤ k ∧ k ≤ 23 ∧ 2 ^ 23 ≤ v.toInt.natAbs * 2 ^ k ∧ v.toInt.natAbs * 2 ^ k < 2 ^ 24 ∧
      itof v = f32Bits (v.toInt < 0) (150 - k) (v.toInt.natAbs * 2 ^ k - 2 ^ 23) := by
  obtain ⟨hm, hmax⟩ := natAbs_toInt_bounds hv
  obtain ⟨k, low, high, reached, below⟩ := exists_normal_shift hm hmax
  refine ⟨k, low, high, reached, below, rne32_eq_of_near Nat.one_pos (by omega) below ?_ (by simp)⟩
  rw [Nat.cast_one, div_one]
  exact_mod_cast reached

theorem f32Value_itof (v : Fixed16) : f32Value (itof v) = some (v.toInt : ℚ) := by
  by_cases hv : v = 0
  · subst hv
    rfl
  · obtain ⟨k, -, high, reached, below, word⟩ := itof_of_ne_zero hv
    rw [word, f32Value_f32Bits reached below (by omega)]
    push_cast
    rw [mul_div_cancel_right₀ _ (by positivity)]
    exact congrArg some (signOf_mul_natAbs v.toInt)

/-- NORM reads its operand back from ITOF's word. -/
theorem f32ToInt16_itof (v : Fixed16) : f32ToInt16 (itof v) = some v.toInt := by
  by_cases hv : v = 0
  · subst hv
    rfl
  · obtain ⟨k, low, high, reached, below, word⟩ := itof_of_ne_zero hv
    have exp : f32Exp (itof v) = 150 - k := by rw [word, f32Exp_f32Bits]; omega
    have frac : 2 ^ 23 + f32Frac (itof v) = v.toInt.natAbs * 2 ^ k := by rw [word, f32Frac_f32Bits]; omega
    have sign : f32Sign (itof v) = decide (v.toInt < 0) := by rw [word, f32Sign_f32Bits]
    have nonzero : itof v ≠ 0 := by
      intro h
      rw [h] at exp
      exact absurd exp (show 0 ≠ 150 - k by omega)
    have inRange : 127 ≤ 150 - k ∧ 150 - k ≤ 142 := by omega
    have lowBound := BitVec.le_toInt v
    have highBound := BitVec.toInt_lt (x := v)
    unfold f32ToInt16
    rw [if_neg nonzero, exp, frac, sign, Nat.sub_sub_self (by omega), Nat.mul_mod_left, Nat.mul_div_cancel _ (by positivity),
      if_pos ⟨inRange.1, inRange.2, rfl⟩]
    by_cases neg : v.toInt < 0
    · rw [if_pos (decide_eq_true neg), if_pos (by omega)]
      congr 1
      omega
    · rw [if_neg (by simpa using neg), if_pos (by omega)]
      congr 1
      omega

/-- R72 is NORM's rounding of the quotient by 32767. -/
theorem rne32_divisor (v : Fixed16) : rne32 (v.toInt < 0) v.toInt.natAbs divisor = i2fBits v := by
  by_cases hv : v = 0
  · subst hv
    rfl
  · obtain ⟨hm, hmax⟩ := natAbs_toInt_bounds hv
    have range := i2fShift_le_38 hm
    have near := i2fSig_near v.toInt.natAbs
    rw [i2fBits_of_ne_zero hv]
    exact rne32_eq_of_near (by decide) (by omega) (i2fSig_lt hm hmax) (le_scaledQuotient hm) (near.trans_lt (by norm_num))

/-! ## Evaluation in binary64 (R78) -/

/-- A quotient within one part in `2^50` of R72's rounds to the same word, but for the power of two at magnitude 32767. -/
theorem rne32_eq_of_close {neg : Bool} {m num den : Nat} (hm : 1 ≤ m) (hmax : m ≤ 32768) (inexact : m ≠ 32767) (hden : 0 < den)
    (close : |(num / den : ℚ) - m / 32767| ≤ m / 32767 / 2 ^ 50) :
    rne32 neg num den = f32Bits neg (150 - i2fShift m) (i2fSig m - 2 ^ 23) := by
  have range := i2fShift_le_38 hm
  have scaledClose : |(num / den : ℚ) * 2 ^ i2fShift m - m / 32767 * 2 ^ i2fShift m| ≤ 1 / 2 ^ 26 := by
    have below : (m * 2 ^ i2fShift m : ℚ) ≤ 2 ^ 24 * 32767 := by exact_mod_cast (mul_two_pow_i2fShift_lt hm hmax).le
    rw [← sub_mul, abs_mul_two_pow]
    calc |(num / den : ℚ) - m / 32767| * 2 ^ i2fShift m ≤ m / 32767 / 2 ^ 50 * 2 ^ i2fShift m := by gcongr
      _ ≤ 1 / 2 ^ 26 := by linarith
  refine rne32_eq_of_near hden (by omega) (i2fSig_lt hm hmax) ?low ?near
  case low =>
    have above : (2 ^ 23 * 32767 + 1 : ℚ) ≤ m * 2 ^ i2fShift m := by
      have reached := (i2fShift_spec hm).1
      have notExact : m * 2 ^ i2fShift m ≠ 2 ^ 23 * 32767 := by
        intro h
        have odd : Nat.Coprime 32767 (2 ^ i2fShift m) := Nat.Coprime.pow_right _ (by decide)
        have : 32767 ∣ m := odd.dvd_of_dvd_mul_right (h ▸ Nat.dvd_mul_left _ _)
        omega
      exact_mod_cast lt_of_le_of_ne reached notExact.symm
    linarith [abs_le.1 scaledClose]
  case near =>
    linarith [abs_sub_le ((num / den : ℚ) * 2 ^ i2fShift m) (m / 32767 * 2 ^ i2fShift m) (i2fSig m), i2fSig_near m]

/-- Rounding to binary64 on the way to binary32 changes nothing, where the number rounded is close to R72's quotient. -/
theorem rne32_roundSig_eq {v : Fixed16} {num den : Nat} (hv : v ≠ 0) (inexact : v.toInt.natAbs ≠ 32767) (hden : 0 < den)
    (last : 2 ^ 52 * den ≤ num * 2 ^ 160) (first : num < 2 ^ 52 * den)
    (close : |(num / den : ℚ) - v.toInt.natAbs / 32767| ≤ v.toInt.natAbs / 32767 / 2 ^ 52) :
    rne32 (v.toInt < 0) (roundSig 53 num den).1 (2 ^ (roundSig 53 num den).2) = i2fBits v := by
  obtain ⟨hm, hmax⟩ := natAbs_toInt_bounds hv
  have error := roundSig_relError (p := 53) (by decide) hden last first
  rw [i2fBits_of_ne_zero hv]
  refine rne32_eq_of_close hm hmax inexact (by positivity) ?_
  generalize v.toInt.natAbs = m at *
  have nonneg : (0 : ℚ) ≤ m := m.cast_nonneg
  rw [Nat.cast_pow, Nat.cast_ofNat]
  refine (abs_sub_le _ (num / den : ℚ) _).trans ?_
  linarith [(abs_le.1 close).2]

/-- The operands of magnitude 32767, whose quotient is a power of two: the next word towards 0 is half as far from it as the next one away. -/
theorem eq_of_natAbs_toInt_eq_divisor {v : Fixed16} (h : v.toInt.natAbs = 32767) : v = 32767 ∨ v = -32767 := by
  obtain h | h := Int.natAbs_eq_iff.1 h
  · exact .inl (BitVec.eq_of_toInt_eq h)
  · exact .inr (BitVec.eq_of_toInt_eq h)

theorem viaBinary64_eq_i2fBits (v : Fixed16) : viaBinary64 v = i2fBits v := by
  by_cases hv : v = 0
  · subst hv
    decide
  by_cases power : v.toInt.natAbs = 32767
  · obtain rfl | rfl := eq_of_natAbs_toInt_eq_divisor power <;> decide
  obtain ⟨hm, hmax⟩ := natAbs_toInt_bounds hv
  simp only [viaBinary64, hv, if_false]
  refine rne32_roundSig_eq hv power (by decide) (by simp only [divisor]; omega) (by simp only [divisor]; omega) ?_
  simp only [divisor, Nat.cast_ofNat, sub_self, abs_zero]
  positivity

/-- The binary64 reciprocal of 32767 (R78). -/
theorem roundSig_reciprocal : roundSig 53 1 divisor = (4503737070518400, 67) := by decide

theorem viaReciprocal64_eq_i2fBits (v : Fixed16) : viaReciprocal64 v = i2fBits v := by
  by_cases hv : v = 0
  · subst hv
    decide
  by_cases power : v.toInt.natAbs = 32767
  · obtain rfl | rfl := eq_of_natAbs_toInt_eq_divisor power <;> decide
  obtain ⟨hm, hmax⟩ := natAbs_toInt_bounds hv
  simp only [viaReciprocal64, hv, if_false, roundSig_reciprocal]
  refine rne32_roundSig_eq hv power (by positivity) (by omega) (by omega) ?_
  rw [abs_le]
  generalize v.toInt.natAbs = m at *
  have nonneg : (0 : ℚ) ≤ m := m.cast_nonneg
  push_cast
  constructor <;> linarith

end Sys2Proof.Machine
end

section
/-! The bytes of a packed group (40_datapath.md R65 to R68), and the firing of DECODE_GROUP (R75). -/

namespace Sys2Proof.Machine

/-! ## The bytes of a packed group (R35, R57, R65) -/

section
variable (a b c : Byte)

theorem getLsbD_bytes (i : Nat) : (c ++ (b ++ a) : BitVec (8 + (8 + 8))).getLsbD i =
    if i < 8 then a.getLsbD i else if i < 16 then b.getLsbD (i - 8) else c.getLsbD (i - 16) := by
  rw [BitVec.getLsbD_append, BitVec.getLsbD_append]
  by_cases low : i < 8
  · simp [low, show i < 8 + 8 by omega]
  · simp [low]

/-- PACK is concatenation: the shifted bytes do not overlap (R65). -/
theorem pack_eq_append : pack a b c = c ++ (b ++ a) := by
  apply BitVec.eq_of_getLsbD_eq
  intro i hi
  rw [getLsbD_bytes]
  simp only [pack, BitVec.getLsbD_or, BitVec.getLsbD_shiftLeft, BitVec.getLsbD_setWidth, hi, decide_true, Bool.true_and,
    show i - 8 < 24 by omega, show i - 16 < 24 by omega]
  by_cases low : i < 8
  · simp [low, show i < 16 by omega]
  · by_cases mid : i < 16
    · simp [low, mid, BitVec.getLsbD_of_ge a i (by omega)]
    · simp [low, mid, BitVec.getLsbD_of_ge a i (by omega), BitVec.getLsbD_of_ge b (i - 8) (by omega)]

theorem byteA_pack : byteA (pack a b c) = a := by
  rw [byteA, pack_eq_append]
  exact (BitVec.extractLsb'_append_eq_of_add_le (by decide)).trans BitVec.extractLsb'_append_eq_right

theorem byteB_pack : byteB (pack a b c) = b := by
  rw [byteB, pack_eq_append]
  exact (BitVec.extractLsb'_append_eq_of_add_le (by decide)).trans BitVec.extractLsb'_append_eq_left

theorem byteC_pack : byteC (pack a b c) = c := by
  rw [byteC, pack_eq_append]
  exact BitVec.extractLsb'_append_eq_left (b := b ++ a)

theorem pack_toNat : (pack a b c).toNat = a.toNat + b.toNat * 2 ^ 8 + c.toNat * 2 ^ 16 := by
  have append {n m : Nat} (x : BitVec n) (y : BitVec m) : (x ++ y).toNat = x.toNat * 2 ^ m + y.toNat := by
    rw [BitVec.toNat_append, ← Nat.shiftLeft_add_eq_or_of_lt y.isLt, Nat.shiftLeft_eq]
  rw [pack_eq_append, append, append]
  omega

theorem unpackS0_pack : unpackS0 (pack a b c) = b.extractLsb' 0 4 ++ a := by
  rw [unpackS0_eq_extractLsb', pack_eq_append]
  apply BitVec.eq_of_getLsbD_eq
  intro i hi
  rw [BitVec.getLsbD_extractLsb', getLsbD_bytes, BitVec.getLsbD_append, BitVec.getLsbD_extractLsb']
  by_cases low : i < 8
  · simp [low, hi]
  · simp [low, hi, show i < 16 by omega, show i - 8 < 4 by omega]

theorem unpackS1_pack : unpackS1 (pack a b c) = c ++ b.extractLsb' 4 4 := by
  rw [unpackS1_eq_extractLsb', pack_eq_append]
  apply BitVec.eq_of_getLsbD_eq
  intro i hi
  rw [BitVec.getLsbD_extractLsb', getLsbD_bytes, BitVec.getLsbD_append, BitVec.getLsbD_extractLsb']
  by_cases low : i < 4
  · simp [low, hi, show ¬ 12 + i < 8 by omega, show 12 + i < 16 by omega, show 12 + i - 8 = 4 + i by omega]
  · simp [low, hi, show ¬ 12 + i < 8 by omega, show ¬ 12 + i < 16 by omega, show 12 + i - 16 = i - 4 by omega]

/-- Each word of a group is the sample of its own 12 bits (R75). -/
theorem decodeGroup_eq : decodeGroup a b c = (sample (b.extractLsb' 0 4 ++ a), sample (c ++ b.extractLsb' 4 4)) := by
  rw [decodeGroup, groupWords, unpackS0_pack, unpackS1_pack]

end

theorem pack_bytes (p : Packed24) : pack (byteA p) (byteB p) (byteC p) = p := by
  have high : byteB p ++ byteA p = p.extractLsb' 0 16 := BitVec.extractLsb'_append_extractLsb'_eq_extractLsb' rfl
  have all : byteC p ++ p.extractLsb' 0 16 = p.extractLsb' 0 24 := BitVec.extractLsb'_append_extractLsb'_eq_extractLsb' rfl
  rw [pack_eq_append, high, all, BitVec.extractLsb'_eq_self]

theorem triplet_unpack (p : Packed24) : triplet (unpackS1 p) (unpackS0 p) = p := by
  rw [unpackS1_eq_extractLsb', unpackS0_eq_extractLsb']
  exact triplet_lanes p

/-! ## A sample (R68, R56) -/

/-- SX16 scales by 16 (R68, R76). -/
theorem toInt_sx16 (raw : Raw12) : (sx16 raw).toInt = 16 * raw.toInt := BitVec.toInt_append_zero

/-- A sample's word is one the block may drive (R56). -/
theorem f32Plain_of_sampleWord {w : Word32} (h : sampleWord w = true) : f32Plain w = true := by
  simp only [sampleWord, f32Plain, Bool.or_eq_true, Bool.and_eq_true, decide_eq_true_eq] at h ⊢
  exact h.imp_right fun ⟨low, high⟩ => ⟨by omega, by omega⟩

/-! ## DECODE_GROUP (R75, log entries 3 and 6) -/

theorem State.completeGroup_eq (s : State) (p : Packed24) : s.completeGroup p = { s with
    outq := s.outq ++ [.word (groupWords p).1, .word (groupWords p).2], phase := 0, inPos := s.inPos + 1 } := by
  simp [State.completeGroup, State.enq, State.setPhase, State.countByte]

section
variable {s : State}

theorem exec_inByte_third {d : Byte} (live : s.live = true) (ready : s.inReady = true) (third : s.phase = 2) :
    exec (.inByte d) s = .next (s.completeGroup (pack s.asm0 s.asm1 d)) := by
  rw [exec_inByte_of_ready live ready, State.putByte_third s d third]

theorem exec_decodeGroup_of_held {h l : Raw12} (live : s.live = true) (ready : s.inReady = true)
    (held : s.holdsGroup (triplet h l) = true) : exec (.decodeGroup h l) s = .next (s.completeGroup (triplet h l)) :=
  State.acceptInput_next.2 ⟨live, .inl ⟨ready, (if_pos held).symm⟩⟩

/-- The byte that completes a group fires DECODE_GROUP on it (R75, R82). -/
theorem exec_decodeGroup_of_third {d : Byte} (live : s.live = true) (ready : s.inReady = true) (third : s.phase = 2) :
    exec (.decodeGroup (unpackS1 (pack s.asm0 s.asm1 d)) (unpackS0 (pack s.asm0 s.asm1 d))) s = exec (.inByte d) s := by
  have held : s.holdsGroup (pack s.asm0 s.asm1 d) = true :=
    State.holdsGroup_iff.2 ⟨third, (byteA_pack ..).symm, (byteB_pack ..).symm⟩
  rw [exec_inByte_third live ready third, exec_decodeGroup_of_held live ready (by rwa [triplet_unpack]), triplet_unpack]

theorem exec_decodeGroup_idle {h l : Raw12} (live : s.live = true)
    (idle : s.inReady = false ∨ ¬ s.holdsGroup (triplet h l) = true) : exec (.decodeGroup h l) s = .next s := by
  refine State.acceptInput_next.2 ⟨live, ?_⟩
  cases ready : s.inReady
  · exact .inr ⟨rfl, rfl⟩
  · exact .inl ⟨rfl, (if_neg (idle.resolve_left (by simp [ready]))).symm⟩

end

end Sys2Proof.Machine
end

section
/-! The statements about the datapath (40_datapath.md). -/

namespace Sys2Proof.Machine

/-- Settles O4: ITOF's significand is the magnitude itself, shifted. -/
theorem intToFloatIsExact : Obligations.IntToFloatIsExact :=
  ⟨f32Value_itof, by decide, by decide⟩

/-- Settles O5: NORM reads the operand back from ITOF's word, and rounds the quotient R72 rounds. -/
theorem converterIsNormAfterIntToFloat : Obligations.ConverterIsNormAfterIntToFloat := by
  intro v
  rw [normalise, f32ToInt16_itof, Option.map_some, rne32_divisor]

/-- Settles O6, in units of the last place of I2F's word: its significand is the integer nearest to the scaled quotient, and the value of every
other word is another integer there, or below the least full significand. -/
theorem converterRoundsToNearest : Obligations.ConverterRoundsToNearest := by
  intro v
  by_cases hv : v = 0
  · subst hv
    exact ⟨0, rfl, fun w z _ hz => by simpa using hz⟩
  · obtain ⟨y, k, q, hy, hk, value, low, near⟩ := exists_scaled_i2fBits hv
    refine ⟨y, hy, fun w z hz other => lt_of_mul_lt_mul_right ?_ (pow_pos two_pos k).le⟩
    rw [← abs_mul_two_pow, ← abs_mul_two_pow, sub_mul, sub_mul, value]
    have other' : z * 2 ^ k ≠ q := fun h => other (mul_right_cancel₀ (pow_pos two_pos k).ne' (h.trans value.symm))
    exact abs_sub_lt_of_near (b := 2 ^ 23) near (by exact_mod_cast low) other' (by exact_mod_cast f32Value_grid hz hk)

/-- Settles O7: two shifts in the bracket are not the one greater than the other. -/
theorem algorithmBracketsTheQuotient : Obligations.AlgorithmBracketsTheQuotient := by
  intro m hm hmax
  obtain ⟨reached, low, -⟩ := i2fShift_spec hm
  have below := mul_two_pow_i2fShift_lt hm hmax
  refine ⟨reached, below, low, i2fShift_le_38 hm, fun k reached' below' => ?_, le_i2fSig hm, i2fSig_lt hm hmax⟩
  exact Nat.le_antisymm (le_of_bracket reached (by omega)) (le_of_bracket reached' (by omega))

/-- Settles O8: the magnitude is the same and the sign bit the other; -0.0 has no exponent of I2F's. -/
theorem converterIsOdd : Obligations.ConverterIsOdd := by
  refine ⟨fun v hv hmin => ?odd, fun v => ?noMinusZero⟩
  case odd =>
    have negated : (-v).toInt = -v.toInt := BitVec.toInt_neg_of_ne_intMin (by rintro rfl; exact absurd hmin (by decide))
    have nonzero : v.toInt ≠ 0 := fun h => hv (BitVec.eq_of_toInt_eq h)
    have sign : decide (-v.toInt < 0) = !decide (v.toInt < 0) := by
      rw [← decide_not, decide_eq_decide]
      omega
    rw [i2fBits_of_ne_zero (neg_ne_zero.2 hv), i2fBits_of_ne_zero hv, negated, Int.natAbs_neg, sign, f32Bits_not]
  case noMinusZero =>
    by_cases hv : v = 0
    · subst hv
      decide
    · intro h
      have := (f32Exp_i2fBits_bounds hv).1
      rw [h] at this
      exact absurd this (by decide)

/-- Settles O9: I2F's errors are smaller than half the distance of the quotients. -/
theorem converterIsStrictlyMonotonic : Obligations.ConverterIsStrictlyMonotonic := fun _ _ => i2fBits_values_lt

/-- Settles O10: the special values by evaluation, the exponents and the range for every nonzero operand. -/
theorem converterResultsAreNormal : Obligations.ConverterResultsAreNormal := by
  refine ⟨by decide, by decide, by decide, by decide, fun v hv => ?_⟩
  obtain ⟨low, high⟩ := f32Exp_i2fBits_bounds hv
  obtain ⟨hm, hmax⟩ := natAbs_toInt_bounds hv
  refine ⟨low, high, _, f32Value_i2fBits hv, ?_⟩
  rw [abs_signOf_mul, abs_of_nonneg (by positivity)]
  exact i2f_range hm hmax

/-- Settles O11: a raw sample lies between 0x800 and 0x7FF, and SX16 and I2F keep the order. -/
theorem samplesStayInRange : Obligations.SamplesStayInRange := by
  have least : sample 0x800 = 0xBF800100 := by decide
  have greatest : sample 0x7FF = 0x3F7FE200 := by decide
  obtain ⟨lo, hlo, -⟩ := i2fBits_value (sx16 0x800)
  obtain ⟨hi, hhi, -⟩ := i2fBits_value (sx16 0x7FF)
  refine ⟨lo, hi, least ▸ hlo, greatest ▸ hhi, least, greatest, fun raw => ?_⟩
  obtain ⟨y, hy, -⟩ := i2fBits_value (sx16 raw)
  have low := BitVec.le_toInt raw
  have high := BitVec.toInt_lt (x := raw)
  refine ⟨sampleWord_sample raw, f32Plain_of_sampleWord (sampleWord_sample raw), y, hy, i2fBits_values_le ?_ hlo hy,
    i2fBits_values_le ?_ hy hhi⟩
  · rw [toInt_sx16, toInt_sx16, show (0x800 : Raw12).toInt = -2048 by decide]
    omega
  · rw [toInt_sx16, toInt_sx16, show (0x7FF : Raw12).toInt = 2047 by decide]
    omega

/-- Settles O12: SX16 is injective, and I2F keeps a strict order strict. -/
theorem sampleIsInjective : Obligations.SampleIsInjective := by
  intro raw raw' same
  by_contra differ
  have apart : (sx16 raw).toInt ≠ (sx16 raw').toInt := by
    rw [toInt_sx16, toInt_sx16]
    exact fun h => differ (BitVec.eq_of_toInt_eq (by omega))
  obtain less | greater := Int.lt_or_gt_of_ne apart
  · exact i2fBits_ne_of_lt less same
  · exact i2fBits_ne_of_lt greater same.symm

/-- Settles O13: each word is a function of its own lane, and the lane of its own bytes. -/
theorem lanesAreIndependent : Obligations.LanesAreIndependent := by
  refine ⟨fun p => ?_, fun a b c a' b' c' => ⟨?_, ?_⟩⟩
  · rw [groupWords, unpackS0_eq_extractLsb', unpackS1_eq_extractLsb']
    rfl
  · intro ha hb
    rw [decodeGroup_eq, decodeGroup_eq, ha, hb]
  · intro hc hb
    rw [decodeGroup_eq, decodeGroup_eq, hc, hb]

/-- Settles O15: both evaluations by the closeness of their binary64 numbers to the quotient, R79's values by evaluation. -/
theorem binarySixtyFourAgrees : Obligations.BinarySixtyFourAgrees :=
  ⟨fun v => ⟨viaBinary64_eq_i2fBits v, viaReciprocal64_eq_i2fBits v⟩, by decide, by decide, by decide⟩

/-- Settles O30: the held triplet is the group the third byte completes. -/
theorem groupFiresWithItsThirdByte : Obligations.GroupFiresWithItsThirdByte := by
  intro h l s
  refine ⟨State.whenLive_of_not_live, fun live ready third first second => ?fires, fun live idle => ?idle⟩
  case fires =>
    have fired := exec_decodeGroup_of_held live ready (State.holdsGroup_iff.2 ⟨third, first, second⟩)
    constructor
    · rw [fired, State.completeGroup_eq, groupWords_triplet]
    · rw [fired, exec_inByte_third live ready third, first, second, pack_bytes]
  case idle =>
    refine exec_decodeGroup_idle live (idle.imp_right fun other => ?_)
    rw [State.holdsGroup_iff]
    tauto

/-- Settles O43: the producer's step accepts the byte, and that byte fires the group. -/
theorem thirdByteStepFiresTheGroup : Obligations.ThirdByteStepFiresTheGroup := by
  intro s ws ts c rest live ready third turns waiting offered
  rw [step_producer turns waiting offered (.inr ready), decodeIn_byteToken]
  exact (exec_decodeGroup_of_third (s := { s with turns := ws ++ ts, inTokens := rest }) live ready third).symm

/-- Settles O1, from PACK as concatenation. -/
theorem packPlacesTheBytes : Obligations.PackPlacesTheBytes := by
  intro a b c
  exact ⟨byteA_pack a b c, byteB_pack a b c, byteC_pack a b c, pack_toNat a b c, Nat.le_of_lt_succ (pack a b c).isLt, by decide⟩

/-- Settles O2, from the lanes as bit fields. -/
theorem unpackSelectsTheLanes : Obligations.UnpackSelectsTheLanes :=
  ⟨fun p => ⟨unpackS0_eq_extractLsb' p, unpackS1_eq_extractLsb' p⟩,
    fun a b c => ⟨unpackS0_pack a b c, unpackS1_pack a b c⟩, by decide, by decide⟩

/-- Settles O3: the low four bits are 0, so both readings are scaled by 16. -/
theorem signExtenderScalesBySixteen : Obligations.SignExtenderScalesBySixteen := by
  refine ⟨fun raw => ?_, by decide, by decide, by decide, by decide⟩
  have low := BitVec.le_toInt raw
  have high := BitVec.toInt_lt (x := raw)
  have scaled := toInt_sx16 raw
  have shifted : (sx16 raw).toNat = raw.toNat * 2 ^ 4 := by
    rw [sx16, BitVec.toNat_append, BitVec.toNat_zero, Nat.or_zero, Nat.shiftLeft_eq]
  exact ⟨shifted, BitVec.extractLsb'_append_eq_right, scaled, by omega, by omega⟩

/-- Settles O14, by evaluation. -/
theorem decodeGroupWorkedExamples : Obligations.DecodeGroupWorkedExamples := by
  unfold Obligations.DecodeGroupWorkedExamples
  decide

end Sys2Proof.Machine
end

section
/-! Each transaction of 41_stream.md as an equation, where it is enabled and where it waits, and its frame (R82 to R86, R94). -/

namespace Sys2Proof.Machine

variable {s t : State}

/-! ## The transactions, enabled and waiting -/

theorem exec_inEnd_of_ready {r : Byte} (live : s.live = true) (ready : s.inReady = true) :
    exec (.inEnd r) s = .next s.putEnd :=
  State.acceptInput_next.2 ⟨live, .inl ⟨ready, rfl⟩⟩

/-- With `in_ready` low the offered token waits, whatever its transfer would do (R94). -/
theorem State.acceptInput_of_low {f : State → State} (live : s.live = true) (low : s.inReady = false) :
    s.acceptInput f = .next s :=
  State.acceptInput_next.2 ⟨live, .inr ⟨low, rfl⟩⟩

theorem State.giveOutput_of_head {o : OutToken} {q : List OutToken} (live : s.live = true) (queue : s.outq = o :: q) :
    s.giveOutput o = .next { s with outq := q, taken := s.taken ++ [o] } :=
  State.giveOutput_next.2
    ⟨live, .inl ⟨State.outData_eq_some.2 ⟨q, queue⟩, by rw [State.deliver, queue, List.tail_cons]⟩⟩

theorem State.giveOutput_of_other {o : OutToken} (live : s.live = true) (other : s.outData ≠ some o) :
    s.giveOutput o = .next s :=
  State.giveOutput_next.2 ⟨live, .inr ⟨other, rfl⟩⟩

/-- CLEAR or RESET of a live block delivers nothing, empties the queue and leaves a start-of-stream point (R86, R113). -/
theorem exec_event {i : Instr} (event : i = .clear ∨ i = .reset) (live : s.live = true) (h : exec i s = .next t) :
    t.taken = s.taken ∧ t.outq = [] ∧ t.AtStreamStart := by
  obtain rfl | rfl := event
  · cases exec_effect h with
    | waits _ low => exact absurd trivial low
    | cleared => exact ⟨rfl, rfl, live, rfl, rfl⟩
  · cases exec_effect h with
    | waits _ low => exact absurd trivial low
    | wasReset => exact ⟨rfl, rfl, rfl, rfl, rfl⟩

/-- So does a step that takes the turn of such an event. -/
theorem step_event {c r : Bool} (live : s.live = true) (next : s.nextTurn = some (.controller c r)) (event : (c || r) = true)
    (h : step s = .next t) : t.taken = s.taken ∧ t.outq = [] ∧ t.AtStreamStart := by
  obtain ⟨i, fetched, control⟩ : ∃ i, s.fetch = some i ∧ (i = .clear ∨ i = .reset) := by
    rw [fetch_controller next]
    cases r with
    | true => exact ⟨.reset, rfl, .inr rfl⟩
    | false => exact ⟨.clear, if_pos (by simpa using event), .inl rfl⟩
  rw [step, fetched] at h
  exact exec_event (s := s.advance) control live h

/-! ## The bytes an accepted byte writes (R20, R82) -/

theorem State.putByte_asm0 (s : State) (d : Byte) : (s.putByte d).asm0 = if s.phase = 0 then d else s.asm0 := by
  obtain h | h | h := phase_cases s
  · simp [State.putByte_first s d h, h]
  · simp [State.putByte_second s d h, h]
  · simp [State.putByte_third s d h, h]

theorem State.putByte_asm1 (s : State) (d : Byte) : (s.putByte d).asm1 = if s.phase = 1 then d else s.asm1 := by
  obtain h | h | h := phase_cases s
  · simp [State.putByte_first s d h, h]
  · simp [State.putByte_second s d h, h]
  · simp [State.putByte_third s d h, h]

end Sys2Proof.Machine
end

section
/-! A whole stream in a run without CLEAR or RESET (41_stream.md R89 to R97): its `End`, where a run can be cut, and the stream
function's words. -/

namespace Sys2Proof.Machine

variable {s t : State} {base : List OutToken} {x y : List Byte} {rest : List InBits} {n : Nat}

/-! ## The words of F(x) (R89, R90, R97) -/

theorem streamWords_length (x : List Byte) : (streamWords x).length = 2 * (x.length / 3) := by
  fun_induction leftover x with
  | case1 | case2 | case3 => simp [streamWords]
  | case4 _ _ _ rest ih =>
    simp only [streamWords, List.length_cons, ih]
    omega

theorem exists_word_of_mem_streamWords {o : OutToken} (h : o ∈ streamWords x) : ∃ w, o = .word w := by
  fun_induction leftover x with
  | case1 | case2 | case3 => cases h
  | case4 a b c rest ih =>
    obtain rfl | rfl | later := by simpa only [streamWords, List.mem_cons] using h
    · exact ⟨_, rfl⟩
    · exact ⟨_, rfl⟩
    · exact ih later

/-- Each token but `End` puts four bytes into the file (R37, R85). -/
theorem fileBytes_length (q : List OutToken) : (fileBytes q).length + 4 * q.count .endMark = 4 * q.length := by
  fun_induction fileBytes q with
  | case1 => rfl
  | case2 w q ih =>
    have notEnd : OutToken.word w ≠ .endMark := nofun
    simp only [wordBytes, List.length_append, List.length_cons, List.length_nil, List.count_cons_of_ne notEnd]
    omega
  | case3 q ih =>
    simp only [List.length_cons, List.count_cons_self]
    omega

/-- Behind whole groups the bytes that follow are decoded as on their own (R97). -/
theorem streamWords_append_of_whole (whole : x.length % 3 = 0) (y : List Byte) :
    streamWords (x ++ y) = streamWords x ++ streamWords y := by
  have noLeftover : leftover x = [] := List.length_eq_zero_iff.1 (by rw [leftover_length, whole])
  rw [streamWords_append, noLeftover, List.nil_append]

theorem streamWords_prefix_append (x y : List Byte) : streamWords x <+: streamWords (x ++ y) :=
  ⟨_, (streamWords_append x y).symm⟩

/-- Where an odd number of a stream's words has been taken, the last of them is sample 0 of a group, and the next token is its
sample 1. -/
theorem exists_group_of_odd_prefix {p q : List OutToken} (inWords : p <+: streamWords x) (odd : p.length % 2 = 1)
    (tokens : p ++ q <+: streamOutput x) (queued : q ≠ []) :
    ∃ (k : Nat) (a b c : Byte) (y : List Byte), x.drop (3 * k) = a :: b :: c :: y ∧
      p = streamWords (x.take (3 * k)) ++ [.word (decodeGroup a b c).1] ∧ q.head? = some (.word (decodeGroup a b c).2) := by
  obtain ⟨o, q, rfl⟩ := List.exists_cons_of_ne_nil queued
  fun_induction leftover x generalizing p with
  | case1 | case2 | case3 =>
    obtain rfl : p = [] := List.prefix_nil.1 inWords
    cases odd
  | case4 a b c x ih =>
    match p with
    | [] => cases odd
    | [w] =>
      simp only [streamOutput, streamWords, List.cons_append, List.nil_append, List.cons_prefix_cons] at tokens
      obtain ⟨rfl, rfl, -⟩ := tokens
      exact ⟨0, a, b, c, x, rfl, rfl, rfl⟩
    | w :: w' :: p =>
      simp only [streamOutput, streamWords, List.cons_append, List.cons_prefix_cons] at inWords tokens
      obtain ⟨rfl, rfl, inWords⟩ := inWords
      obtain ⟨k, a', b', c', y, group, taken, head⟩ :=
        ih inWords (by simp only [List.length_cons] at odd; omega) tokens.2.2
      exact ⟨k + 1, a', b', c', y, by simpa [Nat.mul_add] using group, by simp [Nat.mul_add, streamWords, taken], head⟩

/-! ## Cutting a run -/

/-- A run without CLEAR or RESET passes through every number of tokens left on offer. -/
theorem transferRun_split {a b : List InBits} (live : s.live = true) (offered : s.inTokens = a ++ b)
    (hrun : transferRun n s = some t) (past : t.inTokens.length ≤ b.length) :
    ∃ m k u, transferRun m s = some u ∧ u.inTokens = b ∧ transferRun k u = some t := by
  induction n generalizing s a with
  | zero =>
    cases hrun
    obtain rfl : a = [] := by simpa [offered] using past
    exact ⟨0, 0, _, rfl, offered, rfl⟩
  | succ n ih =>
    cases a with
    | nil => exact ⟨0, n + 1, s, rfl, offered, hrun⟩
    | cons tok a =>
      obtain ⟨quiet, v, hstep, later⟩ := transferRun_succ.1 hrun
      obtain ⟨vLive, host⟩ := transfer_step_host live quiet hstep
      have further : ∃ a', v.inTokens = a' ++ b := by
        obtain same | ⟨tok', shorter⟩ := host
        · exact ⟨_, same.trans offered⟩
        · exact ⟨a, (List.cons.inj (shorter.symm.trans offered)).2⟩
      obtain ⟨a', ha'⟩ := further
      obtain ⟨m, k, u, before, here, after⟩ := ih vLive ha' later
      exact ⟨m + 1, k, u, transferRun_succ.2 ⟨quiet, v, hstep, before⟩, here, after⟩

/-- The tokens still on offer are the last ones of those on offer before. -/
theorem transferRun_inTokens_suffix (live : s.live = true) (hrun : transferRun n s = some t) : t.inTokens <:+ s.inTokens := by
  induction n generalizing s with
  | zero => cases hrun; exact List.suffix_rfl
  | succ n ih =>
    obtain ⟨quiet, u, hstep, later⟩ := transferRun_succ.1 hrun
    obtain ⟨uLive, same | ⟨tok, shorter⟩⟩ := transfer_step_host live quiet hstep
    · exact same ▸ ih uLive later
    · exact (ih uLive later).trans (shorter ▸ List.suffix_cons tok _)

/-! ## The end of a stream (R83, R89) -/

/-- IN_END puts `End` behind the words, drops the leftover bytes and leaves the block at the start of the next stream. -/
theorem State.MidStream.putEnd (h : s.MidStream base x) : s.putEnd.MidStream (base ++ streamOutput x) [] where
  live := h.live
  count := rfl
  group := rfl
  output := by
    rw [State.putEnd_taken, State.putEnd_outq, ← List.append_assoc, h.output, streamOutput, List.append_assoc]
    exact (List.append_nil _).symm

theorem State.MidStream.atStreamStart (h : s.MidStream base []) : s.AtStreamStart :=
  ⟨h.live, h.count, Fin.ext h.phase⟩

/-- With the end token on offer, a step that is no CLEAR or RESET accepts nothing, or that token. -/
theorem State.MidStream.end_step (h : s.MidStream base x) (offered : s.inTokens = endToken :: rest)
    (quiet : s.nextTurn.any Turn.isEvent = false) (hstep : step s = .next t) :
    (t.MidStream base x ∧ t.inTokens = s.inTokens) ∨ (t.MidStream (base ++ streamOutput x) [] ∧ t.inTokens = rest) := by
  obtain ⟨-, rfl⟩ | ⟨ws, u, ts, -, -, idle | take | offer⟩ := transfer_step_cases h.live quiet hstep
  · exact .inl ⟨h, rfl⟩
  · obtain ⟨-, -, rfl⟩ := idle
    exact .inl ⟨h.withHost _ _, rfl⟩
  · obtain ⟨-, o, q, hq, rfl⟩ := take
    have delivered := (h.deliver (State.outData_eq_some.2 ⟨q, hq⟩)).withHost s.inTokens (ws ++ ts)
    simp only [State.deliver, hq, List.tail_cons] at delivered
    exact .inl ⟨delivered, rfl⟩
  · obtain ⟨-, tok, others, hin, ready, hexec⟩ := offer
    obtain ⟨rfl, rfl⟩ : endToken = tok ∧ rest = others := by simpa using offered.symm.trans hin
    have advanced := h.withHost rest (ws ++ ts)
    rw [decodeIn_endToken, exec_inEnd_of_ready advanced.live ready] at hexec
    cases hexec
    exact .inr ⟨advanced.putEnd, rfl⟩

/-- A run that accepts exactly the end token. -/
theorem State.MidStream.run_end (h : s.MidStream base x) (offered : s.inTokens = endToken :: rest)
    (hrun : transferRun n s = some t) (accepted : t.inTokens = rest) : t.MidStream (base ++ streamOutput x) [] := by
  induction n generalizing s with
  | zero =>
    cases hrun
    simp [accepted] at offered
  | succ n ih =>
    obtain ⟨quiet, u, hstep, later⟩ := transferRun_succ.1 hrun
    obtain ⟨hu, same⟩ | ⟨hu, remaining⟩ := h.end_step offered quiet hstep
    · exact ih hu (same.trans offered) later
    · exact hu.run (y := []) remaining later accepted

/-- A run without CLEAR or RESET that accepts exactly the tokens of a stream, whatever its schedule and the depth (R89). -/
theorem State.AtStreamStart.run_stream (start : s.AtStreamStart) (offered : s.inTokens = streamTokens x ++ rest)
    (hrun : transferRun n s = some t) (accepted : t.inTokens = rest) :
    t.MidStream (s.taken ++ s.outq ++ streamOutput x) [] := by
  have split : s.inTokens = x.map byteToken ++ (endToken :: rest) := by simpa [streamTokens] using offered
  obtain ⟨m, k, u, bytes, atEnd, last⟩ := transferRun_split start.1 split hrun (by simp [accepted])
  exact (start.midStream.run split bytes atEnd).run_end atEnd last accepted

theorem State.MidStream.output_of_start (h : t.MidStream base []) : t.taken ++ t.outq = base :=
  h.output.trans (List.append_nil base)

/-- With every token taken the consumer holds all of it. -/
theorem State.MidStream.taken_of_start (h : t.MidStream base []) (empty : t.outq = []) : t.taken = base := by
  rw [← h.output_of_start, empty, List.append_nil]

/-- A moment of a stream, no token behind it accepted: some of its bytes have been accepted, or all of its tokens. -/
theorem State.AtStreamStart.during_stream (start : s.AtStreamStart) (offered : s.inTokens = streamTokens x ++ rest)
    (hrun : transferRun n s = some t) (kept : rest.length ≤ t.inTokens.length) :
    (∃ y z, x = y ++ z ∧ t.MidStream (s.taken ++ s.outq) y) ∨ t.MidStream (s.taken ++ s.outq ++ streamOutput x) [] := by
  obtain ⟨a, ha⟩ := transferRun_inTokens_suffix start.1 hrun
  have behind : rest <:+ t.inTokens :=
    List.suffix_of_suffix_length_le ⟨_, offered.symm⟩ ⟨a, ha⟩ kept
  obtain ⟨left, hleft⟩ := behind
  have stream : a ++ left = x.map byteToken ++ [endToken] := by
    refine List.append_cancel_right (bs := rest) ?_
    rw [List.append_assoc, hleft, ha, offered, streamTokens]
  obtain rfl | ⟨left', last, rfl⟩ := left.eq_nil_or_concat'
  · exact .inr (start.run_stream offered hrun hleft.symm)
  · rw [← List.append_assoc] at stream
    obtain ⟨bytes, -⟩ := List.append_inj' stream rfl
    obtain ⟨y, z, rfl, rfl, -⟩ := List.map_eq_append_iff.1 bytes.symm
    exact .inl ⟨y, z, rfl, start.midStream.run ha.symm hrun rfl⟩

end Sys2Proof.Machine
end

section
/-! The statements about the transactions of the streams and their frames (41_stream.md R82 to R86, R94). -/

namespace Sys2Proof.Machine

/-- Settles O33, by the effects of the input transactions. -/
theorem inputFrame : Obligations.InputFrame := by
  rintro i s t input h
  obtain ⟨d, rfl⟩ | ⟨r, rfl⟩ | ⟨h', l, rfl⟩ := input
  · cases exec_effect h with
    | waits => simp
    | byte d ready =>
      obtain phase | phase | phase := phase_cases s
      all_goals simp [State.putByte_asm0, State.putByte_asm1, State.byteOutput, phase]
  · cases exec_effect h with
    | waits => simp
    | ended => simp
  · cases exec_effect h with
    | waits => simp
    | group _ _ _ third => simp [third]

/-- Settles O34: a take moves the head of the queue behind what was delivered. -/
theorem outputFrame : Obligations.OutputFrame := by
  rintro i s t output h
  obtain ⟨o, rfl⟩ : ∃ o, i = takeInstr o := by
    obtain ⟨w, rfl⟩ | rfl := output
    · exact ⟨.word w, rfl⟩
    · exact ⟨.endMark, rfl⟩
  rw [exec_takeInstr] at h
  obtain ⟨-, ⟨head, rfl⟩ | ⟨-, rfl⟩⟩ := State.giveOutput_next.1 h
  · exact ⟨rfl, rfl, rfl, rfl, rfl, rfl, rfl, rfl, State.deliver_taken_append_outq head⟩
  · exact ⟨rfl, rfl, rfl, rfl, rfl, rfl, rfl, rfl, rfl⟩

/-- Settles O35, by the effects of the control transactions. -/
theorem controlFrame : Obligations.ControlFrame := by
  rintro i s t (rfl | rfl) h
  · cases exec_effect h <;> exact ⟨rfl, rfl, rfl, rfl, fun _ => ⟨rfl, rfl, rfl⟩⟩
  · cases exec_effect h <;> exact ⟨rfl, rfl, rfl, rfl, by simp⟩

/-- Settles O49: of the steps that are no control event only the consumer's writes the queue, and the waiting producer's turn stays. -/
theorem onlyTheConsumerEndsAWait : Obligations.OnlyTheConsumerEndsAWait := by
  intro s t ⟨live, due, offered, low⟩ h notConsumer quiet
  have waiting : s.waits .producer = true := by simp [State.waits, live, offered, low]
  have stillDue : .producer ∈ t.turns := by
    rw [← List.count_pos_iff, step_keeps_waiting_turns h waiting]
    exact List.count_pos_iff.2 due
  obtain ⟨-, rfl⟩ | ⟨ws, u, ts, turns, before, idle | take | offer⟩ := transfer_step_cases live quiet h
  · exact ⟨⟨live, due, offered, low⟩, rfl, rfl, rfl⟩
  · obtain ⟨-, -, rfl⟩ := idle
    exact ⟨⟨live, stillDue, offered, low⟩, rfl, rfl, rfl⟩
  · obtain ⟨rfl, o, q, queue, -⟩ := take
    exact absurd (nextTurn_eq_some turns before (by simp [State.waits, queue])) notConsumer
  · obtain ⟨-, tok, rest, -, ready, -⟩ := offer
    exact absurd ready (by simp [low])

/-- Settles O23, by the byte's case distinction. -/
theorem byteIsStoredOrCompletesTheGroup : Obligations.ByteIsStoredOrCompletesTheGroup := by
  refine fun d s => ⟨State.whenLive_of_not_live, fun live ready => ⟨fun first => ?_, fun second => ?_, fun third => ?_⟩⟩
  · rw [exec_inByte_of_ready live ready, State.putByte_first s d first]
    rfl
  · rw [exec_inByte_of_ready live ready, State.putByte_second s d second]
    rfl
  · rw [exec_inByte_third live ready third, State.completeGroup_eq]
    rfl

/-- Settles O24, from the enabled IN_END. -/
theorem endClosesTheStream : Obligations.EndClosesTheStream :=
  fun _ _ => ⟨State.whenLive_of_not_live, exec_inEnd_of_ready⟩

/-- Settles O25, from the output handshake with its token at the head. -/
theorem wordIsDeliveredOnce : Obligations.WordIsDeliveredOnce :=
  fun _ _ => ⟨State.whenLive_of_not_live, fun _ => State.giveOutput_of_head⟩

/-- Settles O26, from the output handshake with its token at the head. -/
theorem endIsDeliveredOnce : Obligations.EndIsDeliveredOnce :=
  fun _ => ⟨State.whenLive_of_not_live, fun _ => State.giveOutput_of_head⟩

/-- Settles O27: of a block that is already clear CLEAR writes only what is there. -/
theorem clearAbortsTheStream : Obligations.ClearAbortsTheStream := by
  intro s
  have clears (live : s.live = true) : exec .clear s = .next { s with phase := 0, inPos := 0, outq := [] } :=
    State.whenLive_of_live live
  refine ⟨State.whenLive_of_not_live, clears, fun live phase queue => ?_⟩
  rw [clears live, ← phase, ← queue]

/-- Settles O42, from the handshakes that are not enabled and the steps in which every agent waits. -/
theorem waitingKeepsTheState : Obligations.WaitingKeepsTheState :=
  ⟨fun _ _ _ live low => ⟨State.acceptInput_of_low live low, State.acceptInput_of_low live low⟩,
    fun _ _ => State.giveOutput_of_other, fun _ => State.giveOutput_of_other, fun _ => runSteps_of_all_wait⟩

end Sys2Proof.Machine
end

section
/-! The statements about whole streams (41_stream.md R89 to R97). -/

namespace Sys2Proof.Machine

/-- Settles O52: after a stream's tokens the block is at the start of the next stream, with F(x) behind what there was. -/
theorem streamOutputIsTheStreamFunction : Obligations.StreamOutputIsTheStreamFunction := by
  intro s t x rest n start offered hrun accepted
  have ended := start.run_stream offered hrun accepted
  exact ⟨ended.output_of_start, ended.atStreamStart, ended.taken_of_start⟩

/-- Settles O54: at each moment a prefix of the stream's tokens has left the block, and the next one is the head of the queue. -/
theorem cutStreamLeavesAPrefix : Obligations.CutStreamLeavesAPrefix := by
  intro s t x rest n start offered hrun kept
  have moment := start.during_stream offered hrun kept
  have live : t.live = true := moment.elim (fun ⟨_, _, _, mid⟩ => mid.live) (·.live)
  have tokens : t.taken ++ t.outq <+: s.taken ++ s.outq ++ streamOutput x := by
    obtain ⟨y, z, rfl, mid⟩ | ended := moment
    · rw [mid.output, List.prefix_append_right_inj]
      exact (streamWords_prefix_append y z).trans (List.prefix_append ..)
    · rw [ended.output_of_start]
  have taken := (List.prefix_append ..).trans tokens
  refine ⟨taken, fun notAll => ?words, fun p hp inWords odd => ?parity, fun u i event => exec_event event live⟩
  case words =>
    rw [streamOutput, ← List.append_assoc] at taken notAll
    exact (List.prefix_concat_iff.1 taken).resolve_left notAll
  case parity =>
    rw [hp, List.append_assoc, List.prefix_append_right_inj] at tokens
    refine exists_group_of_odd_prefix inWords odd tokens fun empty => ?_
    obtain ⟨y, z, -, mid⟩ | ended := moment
    · have all : p = streamWords y := by simpa [hp, empty] using mid.output
      rw [all, streamWords_length] at odd
      omega
    · have all : p = streamOutput x := by simpa [hp, empty] using ended.output_of_start
      have shorter := inWords.length_le
      simp [all, streamOutput] at shorter

/-- Settles O55: each consumer holds F(x) behind what there was at the start. -/
theorem outputIsScheduleIndependent : Obligations.OutputIsScheduleIndependent := by
  intro s s' t t' x n n' start start' offered offered' taken queue hrun hrun' ended ended'
  obtain ⟨-, ⟨-, accepted⟩, empty, -⟩ := ended
  obtain ⟨-, ⟨-, accepted'⟩, empty', -⟩ := ended'
  have run := start.run_stream (rest := []) (by simpa using offered) hrun accepted
  have run' := start'.run_stream (rest := []) (by simpa using offered') hrun' accepted'
  rw [run.taken_of_start empty, run'.taken_of_start empty', taken, queue]

/-- Settles O56: `End`, CLEAR and RESET each leave the block at the start of the next stream. -/
theorem streamsAreIndependent : Obligations.StreamsAreIndependent := by
  refine ⟨?ended, ?cut⟩
  case ended =>
    intro s t x y rest n start offered hrun accepted empty
    obtain ⟨m, k, u, first, between, second⟩ := transferRun_split start.1 offered hrun (by simp [accepted])
    have ended := start.run_stream offered first between
    have run := ended.atStreamStart.run_stream between second accepted
    rw [run.taken_of_start empty, ended.output_of_start]
  case cut =>
    intro s u t c r y rest ts n live next event hstep hrun accepted
    obtain ⟨taken, queue, start⟩ := step_event live next event hstep
    have run := State.AtStreamStart.run_stream (s := { u with inTokens := streamTokens y ++ rest, turns := ts }) start rfl hrun
      accepted
    simp only [taken, queue, List.append_nil] at run
    exact ⟨run.output_of_start, run.taken_of_start⟩

/-- Settles O58: two words of four bytes for each complete group, and `End` is no part of the file. -/
theorem outputLengthLaw : Obligations.OutputLengthLaw := by
  intro x
  have words := streamWords_length x
  refine ⟨words, fun o => exists_word_of_mem_streamWords, ?_⟩
  have noEnd : .endMark ∉ streamWords x := fun h => by simpa using exists_word_of_mem_streamWords h
  have bytes := fileBytes_length (streamOutput x)
  simp only [streamOutput, List.count_append, List.count_eq_zero_of_not_mem noEnd, List.count_singleton_self, List.length_append,
    words, List.length_singleton] at bytes ⊢
  omega

/-- Settles O59: the bytes accepted are those of one stream, and behind the whole groups of `x` decoding starts afresh. -/
theorem unseparatedStreamsJoin : Obligations.UnseparatedStreamsJoin := by
  intro s t x y rest n start whole hrun accepted
  have joined (z : List Byte) (offered : s.inTokens = (x ++ z).map byteToken ++ rest) :
      t.taken ++ t.outq = s.taken ++ s.outq ++ (streamWords x ++ streamWords z) := by
    rw [(start.midStream.run offered hrun accepted).output, List.nil_append, streamWords_append_of_whole whole]
  refine ⟨joined y, fun p a b offered => ?_, fun p q a offered => ?_⟩
  · simpa [streamWords] using joined (p :: a :: b :: y) (by simpa using offered)
  · simpa [streamWords] using joined (p :: q :: a :: y) (by simpa using offered)

end Sys2Proof.Machine
end

section
/-! What a transaction and a step answer (60_exceptions.md R98, R99): a live block's a next state, a fault before the first RESET, and
never a refusal. -/

namespace Sys2Proof.Machine

variable {s : State}

/-- The input handshake of a live block answers, whether the token is let in or waits. -/
theorem State.acceptInput_answers (live : s.live = true) (f : State → State) : ∃ t, s.acceptInput f = .next t := by
  cases ready : s.inReady with
  | true => exact ⟨f s, State.acceptInput_next.2 ⟨live, .inl ⟨ready, rfl⟩⟩⟩
  | false => exact ⟨s, State.acceptInput_of_low live ready⟩

/-- The output handshake of a live block answers, whether its token is at the head or not. -/
theorem State.giveOutput_answers (live : s.live = true) (o : OutToken) : ∃ t, s.giveOutput o = .next t := by
  by_cases head : s.outData = some o
  · exact ⟨s.deliver o, State.giveOutput_next.2 ⟨live, .inl ⟨head, rfl⟩⟩⟩
  · exact ⟨s, State.giveOutput_of_other live head⟩

theorem exec_answers_of_live (live : s.live = true) (i : Instr) : ∃ t, exec i s = .next t := by
  cases i with
  | inByte | inEnd | decodeGroup => exact State.acceptInput_answers live _
  | outWord | outEnd => exact State.giveOutput_answers live _
  | clear => exact ⟨_, State.whenLive_of_live live⟩
  | reset => exact ⟨_, rfl⟩

theorem exec_faults_of_not_live {i : Instr} (unreset : s.live = false) (notReset : i ≠ .reset) :
    exec i s = .fault .notReset := by
  cases i with
  | reset => exact absurd rfl notReset
  | _ => exact State.whenLive_of_not_live unreset

theorem exec_not_refused (i : Instr) (s : State) (r : Refusal) : exec i s ≠ .refused r := by
  cases live : s.live with
  | true =>
    obtain ⟨t, answer⟩ := exec_answers_of_live live i
    simp [answer]
  | false =>
    by_cases isReset : i = .reset
    · subst isReset; exact nofun
    · simp [exec_faults_of_not_live live isReset]

theorem step_answers_of_live (live : s.live = true) : ∃ t, step s = .next t := by
  rw [step]
  cases s.fetch with
  | none => exact ⟨_, rfl⟩
  | some i => exact exec_answers_of_live (s := s.advance) live i

theorem runSteps_one (s : State) : runSteps 1 s = step s := by
  rw [runSteps]
  cases step s <;> rfl

/-- A run that faults stays faulted, however long it goes on; there is one fault it can have (R99). -/
theorem runSteps_fault_stays {f : Fault} {m : Nat} (fault : runSteps m s = .fault f) (n : Nat) :
    runSteps (m + n) s = .fault f := by
  induction m generalizing s with
  | zero => cases fault
  | succ m ih =>
    rw [Nat.add_right_comm, runSteps]
    rw [runSteps] at fault
    cases answer : step s with
    | next t =>
      rw [answer] at fault
      exact ih fault
    | fault => rfl
    | refused => simp [answer] at fault

end Sys2Proof.Machine
end

section
/-! The turns of one clocked cycle (60_exceptions.md R103), and the two handshakes at a legal depth (R100). -/

namespace Sys2Proof.Machine

variable {s t : State}

/-! ## The turns of a cycle -/

/-- A cycle with a control line high has the controller's turn alone. -/
theorem State.withCycle_of_control {p : Pins} (control : (p.rst || p.clear) = true) :
    s.withCycle p = { s with turns := .controller p.clear p.rst :: s.turns } := by
  simp [State.withCycle, State.cycleTurns, control]

/-- A cycle with `in_valid` and `out_ready` high, of a live block with a token queued: the consumer's turn comes first, and the
producer's follows if `in_ready` was high at the start. -/
theorem State.withCycle_of_both {p : Pins} {o : OutToken} {q : List OutToken}
    (both : p = { rst := false, clear := false, inValid := true, outReady := true }) (live : s.live = true)
    (queue : s.outq = o :: q) :
    s.withCycle p = { s with turns := .consumer :: ((if s.inReady then [.producer] else []) ++ s.turns) } := by
  simp [State.withCycle, State.cycleTurns, State.outTransfer, State.inTransfer, State.outValid, both, live, queue]

/-- A take keeps `in_ready` high. -/
theorem State.deliver_inReady (o : OutToken) (ready : s.inReady = true) : (s.deliver o).inReady = true := by
  rw [State.inReady_iff] at ready ⊢
  have shorter := s.outq.tail_sublist.length_le
  simp only [State.deliver_outq, State.deliver_outqDepth]
  omega

/-! ## Who waits -/

theorem State.waits_producer_iff : s.waits .producer = true ↔ s.live = true ∧ s.inTokens ≠ [] ∧ s.inReady = false := by
  simp [State.waits, and_assoc]

theorem State.waits_consumer_iff : s.waits .consumer = true ↔ s.live = true ∧ s.outq = [] := by
  simp [State.waits]

/-- An empty queue has room for a group at every legal depth (R7, R25). -/
theorem State.inReady_of_outq_nil (legal : 2 ≤ s.outqDepth) (empty : s.outq = []) : s.inReady = true :=
  State.inReady_iff.2 (by simpa [empty] using legal)

/-- Producer and consumer never wait on the block at once. -/
theorem State.outq_ne_nil_of_low (legal : 2 ≤ s.outqDepth) (low : s.inReady = false) : s.outq ≠ [] :=
  fun empty => by simp [State.inReady_of_outq_nil legal empty] at low

/-- Where the agent of some turn does not wait, the step uses one turn up. -/
theorem step_turns_length {u : Turn} (due : u ∈ s.turns) (acts : s.waits u = false) (h : step s = .next t) :
    t.turns.length + 1 = s.turns.length := by
  have positive := List.length_pos_of_mem due
  rw [step_turns h, State.advance_turns, List.length_eraseP_of_mem due (by simp [acts])]
  omega

/-- Where every agent that has a turn waits, at a legal depth the same agent has all of them. -/
theorem turns_of_all_wait {u : Turn} (legal : 2 ≤ s.outqDepth) (all : ∀ v ∈ s.turns, s.waits v = true) (due : u ∈ s.turns) :
    (s.ProducerWaits ∧ ∀ v ∈ s.turns, v = .producer) ∨ (s.ConsumerWaits ∧ ∀ v ∈ s.turns, v = .consumer) := by
  cases u with
  | producer =>
    obtain ⟨live, offered, low⟩ := State.waits_producer_iff.1 (all _ due)
    refine .inl ⟨⟨live, due, offered, low⟩, fun v hv => ?_⟩
    cases v with
    | producer => rfl
    | consumer => exact absurd (State.waits_consumer_iff.1 (all _ hv)).2 (State.outq_ne_nil_of_low legal low)
    | controller => cases all _ hv
  | consumer =>
    obtain ⟨live, empty⟩ := State.waits_consumer_iff.1 (all _ due)
    refine .inr ⟨⟨live, due, empty⟩, fun v hv => ?_⟩
    cases v with
    | producer => exact absurd empty (State.outq_ne_nil_of_low legal (State.waits_producer_iff.1 (all _ hv)).2.2)
    | consumer => rfl
    | controller => cases all _ hv
  | controller => cases all _ due

theorem State.stuck_iff (live : s.live = true) (legal : 2 ≤ s.outqDepth) :
    s.Stuck ↔
      (s.ProducerWaits ∧ ∀ u ∈ s.turns, u = .producer) ∨ (s.ConsumerWaits ∧ ∀ u ∈ s.turns, u = .consumer) ∨
        (s.turns = [] ∧ s.outq ≠ []) := by
  constructor
  · rintro ⟨-, all, left⟩
    by_cases due : s.turns = []
    · have untaken : s.outq ≠ [] := by
        obtain someTurn | ⟨-, low⟩ | untaken := left
        · exact absurd due someTurn
        · exact State.outq_ne_nil_of_low legal low
        · exact untaken
      exact .inr (.inr ⟨due, untaken⟩)
    · obtain ⟨u, hu⟩ := List.exists_mem_of_ne_nil _ due
      exact (turns_of_all_wait legal all hu).imp_right .inl
  · rintro (⟨⟨-, due, waiting⟩, only⟩ | ⟨⟨-, due, empty⟩, only⟩ | ⟨noTurn, untaken⟩)
    · refine ⟨live, fun u hu => ?_, .inl (List.ne_nil_of_mem due)⟩
      rw [only u hu, State.waits_producer_iff]
      exact ⟨live, waiting⟩
    · refine ⟨live, fun u hu => ?_, .inl (List.ne_nil_of_mem due)⟩
      rw [only u hu, State.waits_consumer_iff]
      exact ⟨live, empty⟩
    · exact ⟨live, by simp [noTurn], .inr (.inr untaken)⟩

/-- A stuck state is no end of a run (R124). -/
theorem State.Stuck.not_ended (stuck : s.Stuck) : ¬ s.Ended := by
  rintro ⟨-, ⟨noTurn, noToken⟩, empty, -⟩
  obtain ⟨-, -, someTurn | ⟨offered, -⟩ | untaken⟩ := stuck
  · exact someTurn noTurn
  · exact offered noToken
  · exact untaken empty

end Sys2Proof.Machine
end

section
/-! The statements about faults, cycles and stuck states (60_exceptions.md R98 to R103). -/

namespace Sys2Proof.Machine

/-- Settles O31: every arm but RESET's is guarded by `live`, a live block answers, and a faulted run has no later state. -/
theorem notResetIsTheOnlyFault : Obligations.NotResetIsTheOnlyFault := by
  refine ⟨fun i s unreset notReset _ => exec_faults_of_not_live unreset notReset, fun i s f fault => ⟨rfl, ?notLive, ?notReset⟩,
    fun s f fault n => ?stays⟩
  case notLive =>
    refine Bool.eq_false_iff.2 fun live => ?_
    obtain ⟨t, answer⟩ := exec_answers_of_live live i
    cases answer.symm.trans fault
  case notReset =>
    rintro rfl
    cases fault
  case stays =>
    rw [Nat.add_comm]
    exact runSteps_fault_stays ((runSteps_one s).trans fault) n

/-- Settles O32, from the answers of the handshakes and of the control events. -/
theorem liveTransactionsAlwaysAnswer : Obligations.LiveTransactionsAlwaysAnswer :=
  ⟨fun i _ live => exec_answers_of_live live i, fun _ => step_answers_of_live, exec_not_refused⟩

/-- Settles O44: the controller's turn stands alone in its cycle; otherwise the consumer's comes first, and its take leaves `in_ready` high
for the producer's. -/
theorem cycleEventsHavePriorities : Obligations.CycleEventsHavePriorities := by
  refine fun s p => ⟨?reset, ?clear, ?both, ?outputOnly⟩
  case reset =>
    intro rst
    rw [State.withCycle_of_control (by simp [rst]), step_controller (ws := []) rfl (List.forall_mem_nil _), if_pos rst]
    rfl
  case clear =>
    intro noRst clear
    rw [State.withCycle_of_control (by simp [clear]), step_controller (ws := []) rfl (List.forall_mem_nil _), if_neg (by simp [noRst]),
      if_pos clear]
    rfl
  case both =>
    intro o q tok rest i both live ready queue offered decoded
    cases decoded
    have take : step (s.withCycle p) =
        .next { s with turns := .producer :: s.turns, outq := q, taken := s.taken ++ [o] } := by
      rw [State.withCycle_of_both both live queue, if_pos ready]
      exact step_consumer_of_live (ws := []) live rfl (List.forall_mem_nil _) queue
    have stillReady : { s with outq := q, taken := s.taken ++ [o] }.inReady = true := by
      simpa [State.deliver, queue] using State.deliver_inReady o ready
    refine ⟨_, take, rfl, ?_⟩
    rw [runSteps, take]
    exact (runSteps_one _).trans (step_producer_first rfl offered (.inr stillReady))
  case outputOnly =>
    intro o q both live low queue
    rw [State.withCycle_of_both both live queue, if_neg (by simp [low])]
    exact step_consumer_of_live (ws := []) live rfl (List.forall_mem_nil _) queue

/-- Settles O48: at a legal depth the two handshakes are never low at once, so of the agents only one kind can be left waiting, and
nothing but the host moves a state in which all of them wait. -/
theorem blockNeverDeadlocks : Obligations.BlockNeverDeadlocks := by
  refine fun s live legal => ⟨?handshakes, fun due free => ?progress, State.stuck_iff live legal, fun stuck n => ?bad⟩
  case handshakes =>
    by_cases empty : s.outq = []
    · exact .inr (State.inReady_of_outq_nil legal empty)
    · exact .inl (State.outValid_iff.2 empty)
  case progress =>
    obtain ⟨u, hu, acts⟩ : ∃ u ∈ s.turns, s.waits u ≠ true := by
      by_contra! all
      exact free ⟨live, all, .inl due⟩
    obtain ⟨t, answer⟩ := step_answers_of_live live
    exact ⟨t, answer, step_turns_length hu (Bool.eq_false_iff.2 acts) answer⟩
  case bad =>
    have ⟨_, all, _⟩ := stuck
    rw [runSteps_of_all_wait all n]
    refine ⟨.inr ⟨s, rfl, stuck⟩, ?_⟩
    rintro ⟨t, same, ended⟩
    cases same
    exact stuck.not_ended ended

end Sys2Proof.Machine
end

section
/-! Bytes of `asm0` and `asm1` that nothing reads again (10_state.md R20, R31; 70_reset_and_hazards.md R116): `asm0` at a group's start,
`asm1` before its third byte. -/

namespace Sys2Proof.Machine

variable {s t s' : State}

/-! ## What the two states of the relation have in common -/

/-- The other state is the same one with other bytes in the assembler. -/
theorem State.SameUpToDeadBytes.eq_setBytes (same : s.SameUpToDeadBytes t) : t = (s.setAsm0 t.asm0).setAsm1 t.asm1 := by
  obtain ⟨live, phase, outq, inPos, depth, inTokens, turns, taken, -, -⟩ := same
  simp only [State.setAsm0, State.setAsm1, live, phase, outq, inPos, depth, inTokens, turns, taken]

/-- The handshakes and the host's side do not read the assembler. -/
theorem State.SameUpToDeadBytes.fetch_eq (same : s.SameUpToDeadBytes t) : s.fetch = t.fetch := by
  rw [same.eq_setBytes]; rfl

theorem State.SameUpToDeadBytes.inReady_eq (same : s.SameUpToDeadBytes t) : s.inReady = t.inReady := by
  rw [same.eq_setBytes]; rfl

theorem State.SameUpToDeadBytes.outData_eq (same : s.SameUpToDeadBytes t) : s.outData = t.outData := by
  rw [same.eq_setBytes]; rfl

theorem State.SameUpToDeadBytes.live_eq (same : s.SameUpToDeadBytes t) : s.live = t.live := same.1

/-- The bytes that are not dead are those of the current group. -/
theorem State.liveBytes_eq_iff (phase : s.phase = t.phase) :
    (s.phase ≠ 0 → s.asm0 = t.asm0) ∧ (s.phase = 2 → s.asm1 = t.asm1) ↔ s.partialGroup = t.partialGroup := by
  obtain h | h | h := phase_cases s <;> simp [State.partialGroup, ← phase, h]

/-- DECODE_GROUP fires at `phase = 2`, where no byte is dead. -/
theorem State.SameUpToDeadBytes.holdsGroup_iff (same : s.SameUpToDeadBytes t) (p : Packed24) :
    s.holdsGroup p = true ↔ t.holdsGroup p = true := by
  obtain ⟨-, phase, -, -, -, -, -, -, first, second⟩ := same
  rw [State.holdsGroup_iff, State.holdsGroup_iff, ← phase]
  refine and_congr_right fun third => ?_
  rw [first (by simp [third]), second third]

/-! ## Updates keep the relation -/

/-- An update that neither reads nor writes the assembler keeps it, if it keeps `phase` or returns it to 0. -/
theorem State.SameUpToDeadBytes.update {f : State → State} (same : s.SameUpToDeadBytes t)
    (blind : ∀ a b, f ((s.setAsm0 a).setAsm1 b) = ((f s).setAsm0 a).setAsm1 b)
    (asm0 : (f s).asm0 = s.asm0) (asm1 : (f s).asm1 = s.asm1) (phase : (f s).phase = s.phase ∨ (f s).phase = 0) :
    (f s).SameUpToDeadBytes (f t) := by
  have result : f t = ((f s).setAsm0 t.asm0).setAsm1 t.asm1 := (congrArg f same.eq_setBytes).trans (blind _ _)
  obtain ⟨-, -, -, -, -, -, -, -, first, second⟩ := same
  rw [result]
  refine ⟨rfl, rfl, rfl, rfl, rfl, rfl, rfl, rfl, fun started => ?_, fun third => ?_⟩
  · exact asm0.trans (first (phase.resolve_right started ▸ started))
  · exact asm1.trans (second (phase.resolve_right (by simp [third]) ▸ third))

/-- An accepted byte writes the byte that was dead, or joins those that were not (R82). -/
theorem State.SameUpToDeadBytes.putByte (same : s.SameUpToDeadBytes t) (d : Byte) :
    (s.putByte d).SameUpToDeadBytes (t.putByte d) := by
  obtain ⟨live, phase, outq, inPos, depth, inTokens, turns, taken, liveBytes⟩ := same
  have group := (State.liveBytes_eq_iff phase).1 liveBytes
  have phase' : (s.putByte d).phase = (t.putByte d).phase := by simp [phase]
  have outq' : (s.putByte d).outq = (t.putByte d).outq := by simp [outq, State.byteOutput_eq_streamWords, group]
  have group' : (s.putByte d).partialGroup = (t.putByte d).partialGroup := by
    rw [State.putByte_partialGroup, State.putByte_partialGroup, group]
  exact ⟨by simp [live], phase', outq', by simp [inPos], by simp [depth], by simp [inTokens], by simp [turns], by simp [taken],
    (State.liveBytes_eq_iff phase').2 group'⟩

/-! ## Both states answer a handshake alike -/

theorem State.SameUpToDeadBytes.acceptInput_next {f : State → State} (same : s.SameUpToDeadBytes t)
    (kept : (f s).SameUpToDeadBytes (f t)) (h : s.acceptInput f = .next s') :
    ∃ t', t.acceptInput f = .next t' ∧ s'.SameUpToDeadBytes t' := by
  rw [State.acceptInput_next, same.live_eq, same.inReady_eq] at h
  obtain ⟨live, ⟨ready, rfl⟩ | ⟨low, rfl⟩⟩ := h
  · exact ⟨f t, State.acceptInput_next.2 ⟨live, .inl ⟨ready, rfl⟩⟩, kept⟩
  · exact ⟨t, State.acceptInput_of_low live low, same⟩

theorem State.SameUpToDeadBytes.giveOutput_next {o : OutToken} (same : s.SameUpToDeadBytes t)
    (h : s.giveOutput o = .next s') : ∃ t', t.giveOutput o = .next t' ∧ s'.SameUpToDeadBytes t' := by
  rw [State.giveOutput_next, same.live_eq, same.outData_eq] at h
  obtain ⟨live, ⟨head, rfl⟩ | ⟨other, rfl⟩⟩ := h
  · exact ⟨t.deliver o, State.giveOutput_next.2 ⟨live, .inl ⟨head, rfl⟩⟩,
      same.update (f := (·.deliver o)) (fun _ _ => rfl) rfl rfl (.inl rfl)⟩
  · exact ⟨t, State.giveOutput_of_other live other, same⟩

/-! ## Every transaction and every step keeps the relation -/

theorem State.SameUpToDeadBytes.exec_next {i : Instr} (same : s.SameUpToDeadBytes t) (h : exec i s = .next s') :
    ∃ t', exec i t = .next t' ∧ s'.SameUpToDeadBytes t' := by
  cases i with
  | inByte d => exact same.acceptInput_next (same.putByte d) h
  | inEnd r => exact same.acceptInput_next (same.update (f := State.putEnd) (fun _ _ => rfl) rfl rfl (.inr rfl)) h
  | outWord w => exact same.giveOutput_next h
  | outEnd => exact same.giveOutput_next h
  | clear =>
    obtain ⟨live, answer⟩ := State.whenLive_next.1 h
    cases answer
    exact ⟨_, State.whenLive_of_live (same.live_eq ▸ live),
      same.update (f := fun s => s.clearQueue.startStream) (fun _ _ => rfl) rfl rfl (.inr rfl)⟩
  | reset =>
    cases h
    refine ⟨_, rfl, ?_⟩
    rw [same.eq_setBytes]
    exact ⟨rfl, rfl, rfl, rfl, rfl, rfl, rfl, rfl, fun _ => rfl, fun _ => rfl⟩
  | decodeGroup hi lo =>
    refine same.acceptInput_next (f := fun u => if u.holdsGroup (triplet hi lo) then u.completeGroup (triplet hi lo) else u) ?_ h
    simp only [same.holdsGroup_iff]
    split
    · exact same.update (f := (·.completeGroup _)) (fun _ _ => rfl) rfl rfl (.inr rfl)
    · exact same

theorem State.SameUpToDeadBytes.step_next (same : s.SameUpToDeadBytes t) (h : step s = .next s') :
    ∃ t', step t = .next t' ∧ s'.SameUpToDeadBytes t' := by
  have advanced : s.advance.SameUpToDeadBytes t.advance :=
    same.update (f := State.advance) (fun _ _ => rfl) rfl rfl (.inl rfl)
  rw [step, ← same.fetch_eq]
  obtain ⟨fetched, rfl⟩ | ⟨i, fetched, hexec⟩ := step_cases h
  · exact ⟨t.advance, by rw [fetched], advanced⟩
  · rw [fetched]
    exact advanced.exec_next hexec

/-- At the start of a group every byte of the assembler is dead. -/
theorem State.sameUpToDeadBytes_setBytes (start : s.phase = 0) (a b : Byte) :
    s.SameUpToDeadBytes ((s.setAsm0 a).setAsm1 b) :=
  ⟨rfl, rfl, rfl, rfl, rfl, rfl, rfl, rfl, fun started => absurd start started, fun third => by simp [start] at third⟩

/-- CLEAR and RESET of a live block leave the same state but for the assembler, at the start of a group (R31, R86, R113). -/
theorem exec_clear_sameUpToDeadBytes_exec_reset (live : s.live = true) :
    ∃ t u, exec .clear s = .next t ∧ exec .reset s = .next u ∧ t.SameUpToDeadBytes u := by
  refine ⟨_, _, State.whenLive_of_live live, rfl, ?_⟩
  have isLive : s.goLive = s := by rw [State.goLive, ← live]
  rw [isLive]
  exact State.sameUpToDeadBytes_setBytes rfl 0x00 0x00

end Sys2Proof.Machine
end

section
/-! A run under the launch premises (70_reset_and_hazards.md R123, R126): the turns of its schedule are used up until the agents of
those left all wait, and at a legal depth every token of the stream has been taken by then. -/

namespace Sys2Proof.Machine

variable {s t u : State} {ws ts a b c left : List Turn} {n m : Nat}

/-! ## Runs -/

theorem step_keeps_live (live : s.live = true) (h : step s = .next t) : t.live = true := by
  obtain ⟨-, rfl⟩ | ⟨i, -, hexec⟩ := step_cases h
  · exact live
  · exact exec_keeps_live hexec live

/-- A live block's run answers, and what was delivered stays delivered, also under a CLEAR or RESET. -/
theorem runSteps_keeps_taken (live : s.live = true) (n : Nat) : ∃ t, runSteps n s = .next t ∧ s.taken <+: t.taken := by
  induction n generalizing s with
  | zero => exact ⟨s, rfl, List.prefix_rfl⟩
  | succ n ih =>
    obtain ⟨u, hstep⟩ := step_answers_of_live live
    obtain ⟨-, -, grown⟩ := stepsNeverWriteTheParameter s u hstep
    obtain ⟨t, hrun, further⟩ := ih (step_keeps_live live hstep)
    exact ⟨t, by rw [runSteps, hstep]; exact hrun, grown.trans further⟩

/-- A run without CLEAR or RESET is a run, and goes on from the state it reaches. -/
theorem runSteps_of_transferRun (hrun : transferRun m s = some u) (n : Nat) : runSteps (m + n) s = runSteps n u := by
  induction m generalizing s with
  | zero => cases hrun; rw [Nat.zero_add]
  | succ m ih =>
    obtain ⟨-, v, hstep, later⟩ := transferRun_succ.1 hrun
    rw [Nat.add_right_comm, runSteps, hstep]
    exact ih later

/-- An input token adds to the tokens delivered and queued at their tail alone (R43). -/
theorem exec_decodeIn_tokens_prefix {tok : InBits} (h : exec (decodeIn tok) s = .next t) :
    s.taken ++ s.outq <+: t.taken ++ t.outq := by
  have input : decodeIn tok ≠ .clear ∧ decodeIn tok ≠ .reset := by
    obtain ⟨d, rfl⟩ | ⟨r, rfl⟩ := inToken_cases tok
    · simp [decodeIn_byteToken]
    · simp [decodeIn_endTokenWith]
  rw [nothingIsReorderedOrLost _ s t input.1 input.2 h]
  exact List.prefix_append ..

theorem transferRun_tokens_prefix (live : s.live = true) (hrun : transferRun n s = some t) :
    s.taken ++ s.outq <+: t.taken ++ t.outq := by
  induction n generalizing s with
  | zero => cases hrun; exact List.prefix_rfl
  | succ n ih =>
    obtain ⟨quiet, v, hstep, later⟩ := transferRun_succ.1 hrun
    refine List.IsPrefix.trans ?_ (ih (step_keeps_live live hstep) later)
    obtain ⟨-, rfl⟩ | ⟨ws, w, ts, -, -, idle | take | offer⟩ := transfer_step_cases live quiet hstep
    · exact List.prefix_rfl
    · obtain ⟨-, -, rfl⟩ := idle
      exact List.prefix_rfl
    · obtain ⟨-, o, q, queue, rfl⟩ := take
      simp [queue]
    · obtain ⟨-, tok, rest, -, -, hexec⟩ := offer
      exact exec_decodeIn_tokens_prefix (s := { s with turns := ws ++ ts, inTokens := rest }) hexec

/-! ## Using up turns -/

/-- What a run has done that took the turns of `a` and left those of `left`: each turn of the producer took a token off the port, if
one was on offer, and each of the consumer delivered one. -/
structure State.UsesUp (s t : State) (a left : List Turn) : Prop where
  live : t.live = true
  depth : t.outqDepth = s.outqDepth
  accepted : ∃ k, t.inTokens = s.inTokens.drop k ∧ left.count .producer + k = a.count .producer
  delivered : t.taken.length + left.count .consumer = s.taken.length + a.count .consumer

theorem State.UsesUp.refl (live : s.live = true) (a : List Turn) : s.UsesUp s a a :=
  ⟨live, rfl, ⟨0, by simp⟩, rfl⟩

theorem State.UsesUp.trans (first : s.UsesUp u a c) (second : u.UsesUp t c left) : s.UsesUp t a left := by
  obtain ⟨k, tokens, producers⟩ := first.accepted
  obtain ⟨k', tokens', producers'⟩ := second.accepted
  exact ⟨second.live, second.depth.trans first.depth, ⟨k + k', by rw [tokens', tokens, List.drop_drop], by omega⟩,
    second.delivered.trans first.delivered⟩

/-- The turns before and after the one taken stay. -/
theorem State.UsesUp.within {v : Turn} (h : s.UsesUp t [v] []) (ws ts : List Turn) : s.UsesUp t (ws ++ v :: ts) (ws ++ ts) := by
  obtain ⟨live, depth, ⟨k, tokens, producers⟩, consumers⟩ := h
  simp only [List.count_nil, List.count_singleton] at producers consumers
  refine ⟨live, depth, ⟨k, tokens, ?_⟩, ?_⟩ <;> simp only [List.count_append, List.count_cons] <;> omega

/-- The step that takes the turn of an agent that does not wait and is no CLEAR or RESET. -/
theorem exists_step_of_turn {v : Turn} (live : s.live = true) (turns : s.turns = ws ++ v :: ts)
    (waiting : ∀ w ∈ ws, s.waits w = true) (acts : s.waits v = false) (quiet : v.isEvent = false) :
    ∃ t, step s = .next t ∧ t.turns = ws ++ ts ∧ s.UsesUp t [v] [] := by
  cases v with
  | producer =>
    cases offered : s.inTokens with
    | nil => exact ⟨_, step_producer_silent turns waiting offered, rfl, live, rfl, ⟨1, by simp [offered]⟩, rfl⟩
    | cons tok rest =>
      have ready : s.inReady = true := by simpa [State.waits, live, offered] using acts
      obtain ⟨t, hexec⟩ := exec_answers_of_live (s := { s with turns := ws ++ ts, inTokens := rest }) live (decodeIn tok)
      obtain ⟨sameTurns, tokens, isLive, depth, taken⟩ := exec_decodeIn_host hexec
      exact ⟨t, (step_producer turns waiting offered (.inr ready)).trans hexec, sameTurns, isLive.trans live, depth,
        ⟨1, by simp [tokens, offered]⟩, by simp [taken]⟩
  | consumer =>
    have queued : s.outq ≠ [] := fun empty => by simp [State.waits, live, empty] at acts
    obtain ⟨o, q, queue⟩ := List.exists_cons_of_ne_nil queued
    exact ⟨_, step_consumer_of_live live turns waiting queue, rfl, live, rfl, ⟨0, by simp⟩, by simp⟩
  | controller c r =>
    obtain ⟨rfl, rfl⟩ : c = false ∧ r = false := by simpa [Turn.isEvent] using quiet
    exact ⟨_, step_controller turns waiting, rfl, live, rfl, ⟨0, by simp⟩, by simp⟩

/-- A list of turns without CLEAR or RESET, whatever follows it, is used up until the agents of those left all wait. -/
theorem exists_run_until_all_wait (live : s.live = true) (turns : s.turns = a ++ b) (quiet : ∀ v ∈ a, v.isEvent = false) :
    ∃ m t left, transferRun m s = some t ∧ m + left.length = a.length ∧ t.turns = left ++ b ∧
      (∀ w ∈ left, t.waits w = true) ∧ s.UsesUp t a left := by
  induction hn : a.length using Nat.strong_induction_on generalizing s a with
  | _ n ih =>
    obtain all | ⟨ws, v, ts, rfl, waiting, acts, -⟩ := nextTurn_cases { s with turns := a }
    · exact ⟨0, s, a, rfl, by omega, turns, all, .refl live a⟩
    · have turns' : s.turns = ws ++ v :: (ts ++ b) := by simp [turns]
      have quiet' : v.isEvent = false := quiet v (by simp)
      obtain ⟨u, hstep, remaining, used⟩ := exists_step_of_turn live turns' waiting acts quiet'
      have noEvent : s.nextTurn.any Turn.isEvent = false := by simp [nextTurn_eq_some turns' waiting acts, quiet']
      have shorter : (ws ++ ts).length + 1 = n := by simp [← hn, Nat.add_assoc]
      obtain ⟨m, t, left, hrun, length, leftTurns, all, later⟩ :=
        ih (ws ++ ts).length (by omega) (a := ws ++ ts) used.live (by simp [remaining])
          (fun w hw => quiet w (((List.sublist_cons_self v ts).append_left ws).subset hw)) rfl
      exact ⟨m + 1, t, left, transferRun_succ.2 ⟨noEvent, u, hstep, hrun⟩, by omega, leftTurns, all,
        (used.within ws ts).trans later⟩

/-! ## What a run has delivered of a stream -/

variable {base : List OutToken} {x y : List Byte} {rest : List InBits}

/-- Before the stream's `End` is accepted there are fewer tokens than the whole stream has. -/
theorem State.MidStream.output_length_lt (h : t.MidStream base y) (z : List Byte) :
    (t.taken ++ t.outq).length < (base ++ streamOutput (y ++ z)).length := by
  have words := (streamWords_prefix_append y z).length_le
  rw [h.output, List.length_append, List.length_append, streamOutput, List.length_append, List.length_singleton]
  omega

/-- Once the stream's tokens are accepted, the whole of F(x) has been delivered or queued, whatever came behind it. -/
theorem State.AtStreamStart.output_prefix_of_accepted (start : s.AtStreamStart) (offered : s.inTokens = streamTokens x ++ rest)
    (hrun : transferRun n s = some t) (accepted : t.inTokens.length ≤ rest.length) :
    s.taken ++ s.outq ++ streamOutput x <+: t.taken ++ t.outq := by
  obtain ⟨m, k, u, stream, between, later⟩ := transferRun_split start.1 offered hrun accepted
  have ended := start.run_stream offered stream between
  rw [← ended.output_of_start]
  exact transferRun_tokens_prefix ended.live later

/-- A consumer that has been given as many tokens as there are up to the stream's `End` has been given those. -/
theorem State.AtStreamStart.taken_prefix_of_length (start : s.AtStreamStart) (offered : s.inTokens = streamTokens x ++ rest)
    (hrun : transferRun n s = some t) (enough : (s.taken ++ s.outq ++ streamOutput x).length ≤ t.taken.length) :
    s.taken ++ s.outq ++ streamOutput x <+: t.taken := by
  have tokens : s.taken ++ s.outq ++ streamOutput x <+: t.taken ++ t.outq := by
    obtain accepted | kept := le_total t.inTokens.length rest.length
    · exact start.output_prefix_of_accepted offered hrun accepted
    · obtain ⟨y, z, rfl, mid⟩ | ended := start.during_stream offered hrun kept
      · have fewer := mid.output_length_lt z
        rw [List.length_append] at fewer
        omega
      · rw [ended.output_of_start]
  exact List.prefix_of_prefix_length_le tokens (List.prefix_append ..) enough

/-! ## Under the launch premises -/

/-- At a legal depth no producer is left waiting at an empty queue. -/
theorem producer_not_mem_of_all_wait (legal : 2 ≤ t.outqDepth) (all : ∀ w ∈ left, t.waits w = true) (empty : t.outq = []) :
    .producer ∉ left := fun due => by
  obtain ⟨-, -, low⟩ := State.waits_producer_iff.1 (all _ due)
  exact State.outq_ne_nil_of_low legal low empty

/-- A controller is never left waiting, so with neither of the other agents nobody is. -/
theorem eq_nil_of_all_wait (all : ∀ w ∈ left, t.waits w = true) (noProducer : .producer ∉ left) (noConsumer : .consumer ∉ left) :
    left = [] := by
  refine List.eq_nil_iff_forall_not_mem.2 fun w due => ?_
  cases w with
  | producer => exact noProducer due
  | consumer => exact noConsumer due
  | controller => cases all _ due

/-- With an empty queue every turn of the producer has been taken, so the stream is accepted; otherwise every turn of the consumer has. -/
theorem State.Launched.taken_prefix (launched : s.Launched x rest a b) (legal : 2 ≤ s.outqDepth) (hrun : transferRun n s = some t)
    (all : ∀ w ∈ left, t.waits w = true) (used : s.UsesUp t a left) :
    s.taken ++ s.outq ++ streamOutput x <+: t.taken := by
  obtain ⟨start, -, offered, -, -, producers, consumers⟩ := launched
  by_cases empty : t.outq = []
  · obtain ⟨k, tokens, taken⟩ := used.accepted
    rw [List.count_eq_zero_of_not_mem (producer_not_mem_of_all_wait (used.depth ▸ legal) all empty)] at taken
    have accepted : t.inTokens.length ≤ rest.length := by
      simp only [tokens, offered, streamTokens, List.length_drop, List.length_append, List.length_map, List.length_singleton]
      omega
    simpa [empty] using start.output_prefix_of_accepted offered hrun accepted
  · have noConsumer : .consumer ∉ left := fun due => empty (State.waits_consumer_iff.1 (all _ due)).2
    have delivered := used.delivered
    rw [List.count_eq_zero_of_not_mem noConsumer] at delivered
    refine start.taken_prefix_of_length offered hrun ?_
    rw [List.length_append, List.length_append]
    omega

/-- With exactly the turns the stream needs the run takes all of them, and ends. -/
theorem State.Launched.ended (launched : s.Launched x [] a []) (legal : 2 ≤ s.outqDepth) (hrun : transferRun n s = some t)
    (turns : t.turns = left) (all : ∀ w ∈ left, t.waits w = true) (used : s.UsesUp t a left)
    (producers : a.count .producer = x.length + 1)
    (consumers : a.count .consumer = s.outq.length + (streamOutput x).length) :
    left = [] ∧ t.Ended ∧ t.taken = s.taken ++ s.outq ++ streamOutput x := by
  have received := launched.taken_prefix legal hrun all used
  obtain ⟨start, -, offered, -⟩ := launched
  obtain ⟨k, tokens, accepted⟩ := used.accepted
  have length := received.length_le
  have delivered := used.delivered
  simp only [List.length_append] at length
  have taken : t.taken = s.taken ++ s.outq ++ streamOutput x :=
    (received.eq_of_length_le (by simp only [List.length_append]; omega)).symm
  have empty : t.outq = [] := by
    obtain ⟨y, z, rfl, mid⟩ | ended := start.during_stream offered hrun (Nat.zero_le _)
    · have fewer := mid.output_length_lt z
      rw [List.length_append, taken] at fewer
      omega
    · simpa [taken] using ended.output_of_start
  have noProducer := producer_not_mem_of_all_wait (used.depth ▸ legal) all empty
  have noTurn : left = [] := eq_nil_of_all_wait all noProducer (List.count_eq_zero.1 (by omega))
  have noToken : t.inTokens = [] := by
    rw [List.count_eq_zero_of_not_mem noProducer] at accepted
    rw [tokens, offered, List.append_nil, streamTokens, List.drop_eq_nil_iff, List.length_append, List.length_map,
      List.length_singleton]
    omega
  exact ⟨noTurn, ⟨used.live, ⟨turns.trans noTurn, noToken⟩, empty, by simp [State.endsOwed, empty]⟩, taken⟩

end Sys2Proof.Machine
end

section
/-! The statements about reset and hazards (70_reset_and_hazards.md R113 to R126). -/

namespace Sys2Proof.Machine

/-- Settles O28: RESET has no guard, and with its empty queue there is room at every legal depth. -/
theorem resetCompletesInEveryState : Obligations.ResetCompletesInEveryState :=
  fun _ => ⟨_, rfl, rfl, fun legal => State.inReady_of_outq_nil legal rfl, rfl⟩

/-- Settles O51: the relation is kept by every transaction, since a byte is read only where both states hold it. -/
theorem deadBytesMakeNoDifference : Obligations.DeadBytesMakeNoDifference :=
  ⟨fun _ => exec_clear_sameUpToDeadBytes_exec_reset, fun _ _ _ => State.SameUpToDeadBytes.step_next⟩

/-- Settles O57: the schedule is used up until its agents all wait, every token up to the stream's `End` is delivered by then, and what
follows takes none of them back. -/
theorem fairlyScheduledStreamCompletes : Obligations.FairlyScheduledStreamCompletes := by
  intro s x rest a b launched legal
  have ⟨⟨live, _⟩, _, _, turns, quiet, _⟩ := launched
  obtain ⟨m, u, left, hrun, length, remaining, all, used⟩ := exists_run_until_all_wait live turns quiet
  have onward : runSteps a.length s = runSteps left.length u := by
    rw [← length, runSteps_of_transferRun hrun]
  refine ⟨?received, ?endsWell⟩
  case received =>
    obtain ⟨t, later, kept⟩ := runSteps_keeps_taken used.live left.length
    exact ⟨t, onward.trans later, (launched.taken_prefix legal hrun all used).trans kept⟩
  case endsWell =>
    rintro rfl rfl producers consumers
    obtain ⟨rfl, ended, taken⟩ := launched.ended legal hrun (by simpa using remaining) all used producers consumers
    exact ⟨⟨u, onward, ended⟩, u, onward, taken⟩

end Sys2Proof.Machine
end
